-- ==== Sys2Proof/Word.lean ====
section
/-! DEFINITION. The word types of the engine (spec/00_scope.md R6, R7, R10, R11; spec/30_encoding.md R91). -/

namespace Sys2Proof

/-- An unsigned 32-bit word: every working register, accumulator, message word and round constant (R6).
Addition of words is `+32` of R14: it wraps modulo 2^32. -/
abbrev Word := BitVec 32

/-- A byte of the message or the block (R7, R13). -/
abbrev Byte := BitVec 8

/-- The step selector SEL, 11 bits (R91). -/
abbrev Sel := BitVec 11

/-- A round number 0..63, the 6 bits of RI (R40, R95). -/
abbrev RoundIndex := BitVec 6

/-- The port `len_in` and the register LEN, 6 bits (R11, R37). -/
abbrev Length := BitVec 6

/-- The port `msg_in`, 440 bits (R11, R100). -/
abbrev MsgLanes := BitVec 440

/-- The output `digest_out`, 128 bits (R10, R101). -/
abbrev Digest := BitVec 128

end Sys2Proof
end

