-- ==== Sys2Proof/Syntax.lean ====
section
/-! DEFINITION. The operations of the engine: one constructor per row of spec/opcode_table.json
(spec/30_encoding.md R90, R92). -/

namespace Sys2Proof

/-- One operation. A round operation carries its round number `i = RI` (R95), whose low four bits are the operand
bits `iiii` of its row and whose high two bits name its quarter. The operands of START are the input ports of its step
(R121), not bits of the selector, so they stand in the state. -/
inductive Instr where
  /-- RESET (R230). -/
  | reset
  /-- PH_RESERVED, the model-only row for the phase codes 110 and 111 (R94, R210). -/
  | phReserved
  /-- BUILD (R140). -/
  | build
  /-- ROUND_F, a round of quarter 0 (R165). -/
  | roundF (i : RoundIndex)
  /-- ROUND_G, a round of quarter 1 (R166). -/
  | roundG (i : RoundIndex)
  /-- ROUND_H, a round of quarter 2 (R167). -/
  | roundH (i : RoundIndex)
  /-- ROUND_I, a round of quarter 3 (R168). -/
  | roundI (i : RoundIndex)
  /-- FINAL (R190). -/
  | final
  /-- START (R121). -/
  | start
  /-- HOLD (R120). -/
  | hold
deriving DecidableEq, Repr

end Sys2Proof
end

