-- ==== Sys2Proof/WellFormed.lean ====
section
/-! DEFINITION. Which operations are well formed: a round operation's number lies in the quarter of its row
(spec/30_encoding.md R95, R96; spec/43_compression_rounds.md R165 to R168). -/

namespace Sys2Proof

/-- The quarter `q = RI[5:4] = i div 16` of a round number (R95). -/
def quarter (i : RoundIndex) : BitVec 2 := i.extractLsb' 4 2

/-- The check on an operation's operands: `i` is in 0..15, 16..31, 32..47 or 48..63 by its row (R165 to R168). -/
def Instr.wf : Instr → Bool
  | .reset => true
  | .phReserved => true
  | .build => true
  | .roundF i => quarter i == 0
  | .roundG i => quarter i == 1
  | .roundH i => quarter i == 2
  | .roundI i => quarter i == 3
  | .final => true
  | .start => true
  | .hold => true

end Sys2Proof
end

