-- ==== Sys2Proof/Decode.lean ====
section
/-! DEFINITION. The decoder of the step selector and the encoder beside it (spec/30_encoding.md R91, R92). -/

namespace Sys2Proof

/-- A row of R92 matches a selector iff `(SEL AND mask) = match`. -/
def rowMatches (mask pattern w : Sel) : Bool := w &&& mask == pattern

/-- The field `RI[5:0]`, bits 5:0 of SEL (R91). -/
def roundField (w : Sel) : RoundIndex := w.extractLsb' 0 6

/-- The operation of a selector: the rows of R92 in priority order, the first that matches. "The last row catches every
SEL not caught before it", so HOLD stands last without a test. -/
def decodeSel (w : Sel) : Instr :=
  if rowMatches 0x400 0x400 w then .reset
  else if rowMatches 0x580 0x180 w then .phReserved
  else if rowMatches 0x5C0 0x040 w then .build
  else if rowMatches 0x5F0 0x080 w then .roundF (roundField w)
  else if rowMatches 0x5F0 0x090 w then .roundG (roundField w)
  else if rowMatches 0x5F0 0x0A0 w then .roundH (roundField w)
  else if rowMatches 0x5F0 0x0B0 w then .roundI (roundField w)
  else if rowMatches 0x5C0 0x0C0 w then .final
  else if rowMatches 0x600 0x200 w then .start
  else .hold

/-- Why a number is no selector. -/
inductive DecodeError where
  /-- It has a bit above bit 10: SEL has one fixed width of 11 bits (R106). Safe: nothing is decoded from it. -/
  | widerThanSelector
deriving DecidableEq, Repr

/-- Decode a number, bit 0 its least significant bit (log 14). Total; a number that is no selector is rejected by name. -/
def decodeWord (w : Nat) : Except DecodeError Instr :=
  if w < 2 ^ 11 then .ok (decodeSel (BitVec.ofNat 11 w)) else .error .widerThanSelector

/-- What the decoder reads from a word of `nbits` bits, numbered as spec/opcode_table.json numbers them. The selector is
one 11-bit value and is stored nowhere (R77), so no byte order enters; bits above `nbits` are 0. -/
def decodeTableWord (nbits w : Nat) : Option Instr :=
  match decodeWord (w % 2 ^ nbits) with
  | .ok i => some i
  | .error _ => none

/-! ## The encoder -/

/-- The operand bits `iiii = RI[3:0]` of a round row, at bits 3:0 of SEL (R92). -/
def operandBits (i : RoundIndex) : Sel := (i.extractLsb' 0 4).setWidth 11

/-- One selector of each operation: its row's match value with the operand bits put in and the don't-care bits 0 (R92). -/
def encode : Instr → Sel
  | .reset => 0x400
  | .phReserved => 0x180
  | .build => 0x040
  | .roundF i => 0x080 ||| operandBits i
  | .roundG i => 0x090 ||| operandBits i
  | .roundH i => 0x0A0 ||| operandBits i
  | .roundI i => 0x0B0 ||| operandBits i
  | .final => 0x0C0
  | .start => 0x200
  | .hold => 0x000

/-- The bits of SEL that a row reads: its mask (R92), and the operand bits 3:0 of the round rows. Every other bit is
don't-care to the row. -/
def careMask : Instr → Sel
  | .reset => 0x400
  | .phReserved => 0x580
  | .build => 0x5C0
  | .roundF _ => 0x5FF
  | .roundG _ => 0x5FF
  | .roundH _ => 0x5FF
  | .roundI _ => 0x5FF
  | .final => 0x5C0
  | .start => 0x600
  | .hold => 0x600

end Sys2Proof
end

