-- ==== Sys2Proof/Machine/Bits.lean ====
section
/-! DEFINITION. The bit-level primitives of spec/00_scope.md R14 to R18. `x +32 y` of R14 is `x + y` on `Word`, and the
AND, OR, XOR, NOT of R15 are `&&&`, `|||`, `^^^`, `~~~`. -/

namespace Sys2Proof.Machine

/-- `rotl32(x, n)`, the circular left shift for 0 ≤ n ≤ 31 (R16). -/
def rotl32 (x : Word) (n : BitVec 5) : Word :=
  if n = 0 then x else (x <<< n.toNat) ||| (x >>> (32 - n.toNat))

/-- `byte_k(x) = x[8k+7:8k]` (R17). -/
def byteOf (x : Word) (k : Nat) : Byte := x.extractLsb' (8 * k) 8

/-- `bswap32(x) = {x[7:0], x[15:8], x[23:16], x[31:24]}` (R17). -/
def bswap32 (x : Word) : Word := byteOf x 0 ++ byteOf x 1 ++ byteOf x 2 ++ byteOf x 3

/-- Byte `k` of a number, `byte_k` extended to any number of bytes (R18). -/
def byteOfNat (v k : Nat) : Byte := BitVec.ofNat 8 (v / 2 ^ (8 * k))

/-- Message byte `k` on the port: `msg_in[8k+7:8k]` (R100). -/
def lane (v : MsgLanes) (k : Nat) : Byte := v.extractLsb' (8 * k) 8

end Sys2Proof.Machine
end

