-- ==== Sys2Proof/Config.lean ====
section
/-! DEFINITION. The parameters of the engine (spec/00_scope.md R6 to R11). The spec fixes every one of them
("No parameter is left open", R11), so there is nothing here that an implementation chooses, and no free value:
no operation of the engine has an undefined result (R171). -/

namespace Sys2Proof.Config

/-- BLOCK_BYTES, the size of the block buffer BLK (R7). -/
abbrev blockBytes : Nat := 64

/-- WORDS, the words of a block (R7). -/
abbrev blockWords : Nat := 16

/-- ROUNDS (R8). -/
abbrev rounds : Nat := 64

/-- MAX_LEN, the longest legal message in bytes, and the number of bytes of the latch MSG (R9, R36). -/
abbrev maxLen : Nat := 55

/-- The offset of the length field in the block, and its size in bytes (R10, R68). -/
abbrev lengthFieldOffset : Nat := 56

/-- The size of the length field in bytes (R10). -/
abbrev lengthFieldBytes : Nat := 8

end Sys2Proof.Config
end

