-- ==== Sys2Proof/Machine/State.lean ====
section
/-! DEFINITION. The state of the engine (spec/10_state.md R30 to R48), its reasons to stop (spec/60_exceptions.md R210),
the reset state (R46) and the power-up state (spec/70_reset_and_hazards.md R231). -/

namespace Sys2Proof.Machine

/-- What an element of the state holds: `⊥`, the spec's "no value" (R20), or a value. `⊥` is state the spec gives the
machine: R46 lists it as the reset value and R230 WRITES it, so RESET takes a written register back to it. Reading it
is the fault of R210 (log 1). -/
inductive Elem (α : Type) where
  /-- `⊥` (R20). -/
  | bot
  /-- A value. -/
  | val (v : α)
deriving DecidableEq, Repr

/-- The codes of the phase register PH, all eight of its three bits (R93). -/
inductive Phase where
  /-- `000` -/
  | idle
  /-- `001` -/
  | build
  /-- `010` -/
  | round
  /-- `011` -/
  | final
  /-- `100` -/
  | done
  /-- `101` -/
  | err
  /-- `110`, reserved, never written (R94). -/
  | reserved6
  /-- `111`, reserved, never written (R94). -/
  | reserved7
deriving DecidableEq, Repr

/-- The codes of the register CAUSE, all four of its two bits (R41, R103). -/
inductive Cause where
  /-- `00`, no error. -/
  | none
  /-- `01`, InputTooLong. -/
  | inputTooLong
  /-- `10`, reserved, never written. -/
  | reserved2
  /-- `11`, reserved, never written. -/
  | reserved3
deriving DecidableEq, Repr

/-- One sample of the input ports (R43, R100). -/
structure Ports where
  rst : Bool
  start : Bool
  lenIn : Length
  msgIn : MsgLanes
deriving DecidableEq, Repr

/-- An address space of bytes: the bytes that have a value, by rising address. An address that is not listed reads as
`⊥`, which is what R46 gives every byte of MSG and BLK at reset (log 8). -/
abbrev Memory := List Host.Cell

/-- The engine state of R30, and beside it the input samples the host has announced, one for each coming step: the
ports are inputs of a step (R43), and a step takes the first sample of the list (log 2). -/
structure State where
  /-- PH, the phase register (R39). -/
  ph : Elem Phase
  /-- RI, the round index (R40). -/
  ri : Elem RoundIndex
  /-- CAUSE, the cause of the last error (R41). -/
  cause : Elem Cause
  /-- MSG[0..54], the message latch (R36). -/
  msg : Memory
  /-- LEN, the latched message length (R37). -/
  len : Elem Length
  /-- BLK[0..63], the block buffer (R38). -/
  blk : Memory
  /-- A, a working register (R31). -/
  a : Elem Word
  /-- B, a working register (R31). -/
  b : Elem Word
  /-- C, a working register (R31). -/
  c : Elem Word
  /-- D, a working register (R31). -/
  d : Elem Word
  /-- A0, an accumulator (R33). -/
  a0 : Elem Word
  /-- B0, an accumulator (R33). -/
  b0 : Elem Word
  /-- C0, an accumulator (R33). -/
  c0 : Elem Word
  /-- D0, an accumulator (R33). -/
  d0 : Elem Word
  /-- The MODEL's own: the samples of the input ports that the coming steps take, first the next one. -/
  inputs : List Ports
deriving DecidableEq, Repr

/-- The element a read met `⊥` in; a name for a fault, nothing more. -/
inductive Element where
  | ri
  | msg
  | len
  | blk
  | a
  | b
  | c
  | d
  | a0
  | b0
  | c0
  | d0
  | busy
  | done
  | err
  | cause
  | digestOut
deriving DecidableEq, Repr

/-- The model faults (R210): outcomes for what the hardware never produces or leaves undefined. A fault ends the run, so
no later step clears it (log 15). -/
inductive Fault where
  /-- Raised by PH_RESERVED: a phase code 110 or 111 was decoded, for which no behaviour is given (R94, R210, U5). Safe. -/
  | phReserved
  /-- Raised by an operation, a step in PH = ROUND or a host read that uses a `⊥` element: "Reading a `⊥` element is a
model fault" (R47, R20, R127, R210, U2, U3). Safe. -/
  | readBottom (e : Element)
  /-- Raised by a step without `rst` while PH is `⊥`: a step before the first RESET (R210, R231, U4). Safe. -/
  | stepBeforeReset
  /-- Raised by BUILD with LEN above 55: `Pad` is defined for 0..55 only (R141) and no digest is computed for such a
  length (U1). No run reaches it (R201). Safe. -/
  | padUndefined
deriving DecidableEq, Repr

/-- Reasons to refuse an instruction. -/
inductive Refusal where
  /-- Raised by an arm of `exec` whose instruction has no meaning yet. Safe. No arm of this model raises it. -/
  | notModelled (mnemonic : String)
deriving DecidableEq, Repr

/-- The reset state (R46): PH = IDLE, CAUSE = 00, every other element `⊥`. The host has announced no input (log 2). -/
def State.reset : State where
  ph := .val .idle
  ri := .bot
  cause := .val .none
  msg := []
  len := .bot
  blk := []
  a := .bot
  b := .bot
  c := .bot
  d := .bot
  a0 := .bot
  b0 := .bot
  c0 := .bot
  d0 := .bot
  inputs := []

/-- The state at power-up: every element `⊥`, PH and CAUSE included (R231). -/
def State.powerUp : State := { State.reset with ph := .bot, cause := .bot }

end Sys2Proof.Machine
end

