-- ==== Sys2Proof/Machine/Tables.lean ====
section
/-! DEFINITION. The read-only tables S, K and IV (spec/20_memory.md R63 to R67). They are ROM: no operation and no RESET
writes them (R77, R232), so they are constants and not state. -/

namespace Sys2Proof.Machine

/-- The four rotation groups of R65, by quarter and by `i mod 4`. -/
def rotationGroup (q j : BitVec 2) : BitVec 5 :=
  match q.toNat, j.toNat with
  | 0, 0 => 7
  | 0, 1 => 12
  | 0, 2 => 17
  | 0, _ => 22
  | 1, 0 => 5
  | 1, 1 => 9
  | 1, 2 => 14
  | 1, _ => 20
  | 2, 0 => 4
  | 2, 1 => 11
  | 2, 2 => 16
  | 2, _ => 23
  | _, 0 => 6
  | _, 1 => 10
  | _, 2 => 15
  | _, _ => 21

/-- `S[i] = group_q[i mod 4]` with `q = i div 16` (R65). -/
def rotationAmount (i : RoundIndex) : BitVec 5 := rotationGroup (quarter i) (i.extractLsb' 0 2)

/-- `K[0..15]` (R66; log 10). -/
def roundConstantsF : List Word :=
  [0xd76aa478, 0xe8c7b756, 0x242070db, 0xc1bdceee, 0xf57c0faf, 0x4787c62a, 0xa8304613, 0xfd469501,
   0x698098d8, 0x8b44f7af, 0xffff5bb1, 0x895cd7be, 0x6b901122, 0xfd987193, 0xa679438e, 0x49b40821]

/-- `K[16..31]` (R66; log 10). -/
def roundConstantsG : List Word :=
  [0xf61e2562, 0xc040b340, 0x265e5a51, 0xe9b6c7aa, 0xd62f105d, 0x02441453, 0xd8a1e681, 0xe7d3fbc8,
   0x21e1cde6, 0xc33707d6, 0xf4d50d87, 0x455a14ed, 0xa9e3e905, 0xfcefa3f8, 0x676f02d9, 0x8d2a4c8a]

/-- `K[32..47]` (R66; log 10). -/
def roundConstantsH : List Word :=
  [0xfffa3942, 0x8771f681, 0x6d9d6122, 0xfde5380c, 0xa4beea44, 0x4bdecfa9, 0xf6bb4b60, 0xbebfbc70,
   0x289b7ec6, 0xeaa127fa, 0xd4ef3085, 0x04881d05, 0xd9d4d039, 0xe6db99e5, 0x1fa27cf8, 0xc4ac5665]

/-- `K[48..63]` (R66; log 10). -/
def roundConstantsI : List Word :=
  [0xf4292244, 0x432aff97, 0xab9423a7, 0xfc93a039, 0x655b59c3, 0x8f0ccc92, 0xffeff47d, 0x85845dd1,
   0x6fa87e4f, 0xfe2ce6e0, 0xa3014314, 0x4e0811a1, 0xf7537e82, 0xbd3af235, 0x2ad7d2bb, 0xeb86d391]

/-- The table K, 64 entries (R64, R66). -/
def roundConstants : List Word :=
  roundConstantsF ++ roundConstantsG ++ roundConstantsH ++ roundConstantsI

theorem roundConstants_length : roundConstants.length = 64 := rfl

/-- `K[i]` (R64). -/
def roundConstant (i : RoundIndex) : Word :=
  roundConstants[i.toNat]'(by rw [roundConstants_length]; exact i.isLt)

/-- `IV[0]` (R67). -/
def ivA : Word := 0x67452301
/-- `IV[1]` (R67). -/
def ivB : Word := 0xefcdab89
/-- `IV[2]` (R67). -/
def ivC : Word := 0x98badcfe
/-- `IV[3]` (R67). -/
def ivD : Word := 0x10325476

end Sys2Proof.Machine
end

