-- ==== Sys2Proof/Machine/Ops.lean ====
section
/-! DEFINITION. The shared operations of the engine: reading an element, the memory primitives of
spec/00_scope.md R18, the input sample, the step selector (spec/30_encoding.md R91), and raising the engine's one
exception (spec/60_exceptions.md R203). -/

namespace Sys2Proof.Machine

/-- The outcome of an operation. -/
abbrev Result := Host.Outcome State Fault Refusal

/-! ## Reading an element -/

/-- Read the element named `e`: its value goes on to `k`. "Reading a `⊥` element is a model fault" (R47, R20, R210;
spec/93_implementation_defined.md U3: "`fault` on read"). -/
def need {α : Type} (e : Element) (x : Elem α) (k : α → Result) : Result :=
  match x with
  | .bot => .fault (.readBottom e)
  | .val v => k v

/-- The value of a function of an element: `⊥` where the element is `⊥`. -/
def Elem.map {α β : Type} (f : α → β) : Elem α → Elem β
  | .bot => .bot
  | .val v => .val (f v)

/-- The value of a function of two elements: `⊥` where one of them is `⊥`. -/
def Elem.map2 {α β γ : Type} (f : α → β → γ) : Elem α → Elem β → Elem γ
  | .val v, .val w => .val (f v w)
  | _, _ => .bot

/-- The value of an element, or `w` where it is `⊥`: used only for bits that are don't-care (R91, R105). -/
def Elem.getD {α : Type} (x : Elem α) (w : α) : α :=
  match x with
  | .bot => w
  | .val v => v

/-! ## Byte memories (MSG and BLK, spec/20_memory.md R60) -/

/-- The byte at an address: `⊥` where nothing is listed (R46). -/
def readByte : Memory → Nat → Elem Byte
  | [], _ => .bot
  | (k, v) :: m, x => if x = k then .val v else readByte m x

/-- `mem[x] <- v` (R18 with n = 1), keeping the addresses rising. -/
def writeByte : Memory → Nat → Byte → Memory
  | [], x, v => [(x, v)]
  | (k, w) :: m, x, v =>
    if x < k then (x, v) :: (k, w) :: m
    else if x = k then (x, v) :: m
    else (k, w) :: writeByte m x v

/-- Write a list of bytes from address `x` upward. -/
def writeBytes : Memory → Nat → List Byte → Memory
  | m, _, [] => m
  | m, x, v :: vs => writeBytes (writeByte m x v) (x + 1) vs

/-- Read `n` bytes from address `x` upward; `⊥` if one of them is. -/
def readBytes (m : Memory) (x : Nat) : Nat → Elem (List Byte)
  | 0 => .val []
  | n + 1 => Elem.map2 (fun v vs => v :: vs) (readByte m x) (readBytes m (x + 1) n)

/-- `MemRead(addr, n)`: the little-endian value of the n bytes at addr (R18); `⊥` if one of them is. -/
def memRead (m : Memory) (addr : Nat) : Nat → Elem Nat
  | 0 => .val 0
  | n + 1 => Elem.map2 (fun v w => v + w.toNat * 2 ^ (8 * n)) (memRead m addr n) (readByte m (addr + n))

/-- `MemWrite(addr, n, v)`: `mem[addr + k] <- byte_k(v)` for k in 0..n-1 (R18). -/
def memWrite (m : Memory) (addr n v : Nat) : Memory :=
  writeBytes m addr ((List.range n).map (byteOfNat v))

/-- The addresses rise strictly. -/
def Memory.rising : Memory → Bool
  | [] => true
  | [_] => true
  | (k, _) :: (l, v) :: m => decide (k < l) && Memory.rising ((l, v) :: m)

/-- Every listed address exists in a space of `size` bytes (R60). -/
def Memory.within (size : Nat) (m : Memory) : Bool := m.all fun cell => decide (cell.1 < size)

/-- The canonical form of a space of `size` bytes: addresses strictly rising and below `size`. No byte equals `⊥`, so no
entry equals what an unlisted address reads as. -/
def Memory.wf (size : Nat) (m : Memory) : Bool := Memory.rising m && Memory.within size m

/-! ## The input sample (spec/10_state.md R43) -/

/-- A sample with no request and no reset: `rst = 0`, `start = 0` (the line `STEP` of R107). Its `len_in` and `msg_in`
are read by nothing, because only START samples them (R105). -/
def Ports.quiet : Ports := { rst := false, start := false, lenIn := 0, msgIn := 0 }

/-- The sample the next step takes: the first that the host has announced, or no request where it has announced none
(log 2). -/
def State.sample (s : State) : Ports :=
  match s.inputs with
  | [] => Ports.quiet
  | p :: _ => p

/-- The state with its first input sample used up. -/
def State.dropSample (s : State) : State := { s with inputs := s.inputs.tail }

/-! ## The step selector (spec/30_encoding.md R91, R93) -/

/-- The code of a phase (R93). -/
def phaseCode : Phase → BitVec 3
  | .idle => 0b000
  | .build => 0b001
  | .round => 0b010
  | .final => 0b011
  | .done => 0b100
  | .err => 0b101
  | .reserved6 => 0b110
  | .reserved7 => 0b111

/-- The phase of a code (R93). -/
def phaseOfCode (c : BitVec 3) : Phase :=
  match c.toNat with
  | 0 => .idle
  | 1 => .build
  | 2 => .round
  | 3 => .final
  | 4 => .done
  | 5 => .err
  | 6 => .reserved6
  | _ => .reserved7

/-- `SEL = {rst, start, PH[2:0], RI[5:0]}` (R91). -/
def selOf (rst start : Bool) (ph : Phase) (ri : RoundIndex) : Sel :=
  BitVec.ofBool rst ++ BitVec.ofBool start ++ phaseCode ph ++ ri

/-- The selector of the next step, or the fault that forming it meets. With `rst = 1` all of bits 9:0 are don't-care
(R105), so a `⊥` PH or RI stands as zero bits there; without `rst`, a `⊥` PH is a step before the first RESET (R231);
a `⊥` RI is don't-care outside PH = ROUND (R91), and in it, where it is read, the model fault of R47 and U3 (log 7). -/
def fetch (s : State) : Except Fault Sel :=
  let p := s.sample
  if p.rst then .ok (selOf true p.start (s.ph.getD .idle) (s.ri.getD 0))
  else
    match s.ph with
    | .bot => .error .stepBeforeReset
    | .val ph =>
      match s.ri with
      | .val i => .ok (selOf false p.start ph i)
      | .bot => if ph = .round then .error (.readBottom .ri) else .ok (selOf false p.start ph 0)

/-! ## Latching a request, and the one exception (spec/40_interface.md R121, spec/60_exceptions.md R203) -/

/-- `for k in 0..54: MSG[k] <- msg_in[8k+7:8k]`: MSG is written whole (R121, R62). -/
def latchBytes (v : MsgLanes) : Memory :=
  (List.range Config.maxLen).map fun k => (k, lane v k)

/-- `MSG <- msg_in lanes; LEN <- len_in`, "as for every START" (R121, R203). -/
def latchRequest (p : Ports) (s : State) : State :=
  { s with msg := latchBytes p.msgIn, len := .val p.lenIn }

/-- The condition of InputTooLong, evaluated on the sampled `len_in` (R201). -/
def inputTooLong (n : Length) : Bool := decide (Config.maxLen < n.toNat)

/-- `raise InputTooLong(len_in)`: the engine's one exception (R200), taken as R203 describes it. The request stays
latched, `CAUSE <- 01` and `PH <- ERR`, and nothing else is written: there is no saved pc, no vector, no handler, no mode
change. There is no return operation either: ERR is left by a new START or by RESET (R205). -/
def raiseInputTooLong (p : Ports) (s : State) : State :=
  { latchRequest p s with cause := .val .inputTooLong, ph := .val .err }

/-! ## Writing the register groups -/

/-- Four words, in the order A, B, C, D. -/
structure Quad where
  a : Word
  b : Word
  c : Word
  d : Word
deriving DecidableEq, Repr

/-- `A, B, C, D <- q`, all four at once (R19). -/
def State.setWork (s : State) (q : Quad) : State :=
  { s with a := .val q.a, b := .val q.b, c := .val q.c, d := .val q.d }

/-- `A0, B0, C0, D0 <- q`, all four at once (R19). -/
def State.setAcc (s : State) (q : Quad) : State :=
  { s with a0 := .val q.a, b0 := .val q.b, c0 := .val q.c, d0 := .val q.d }

/-- Read the working registers A, B, C and D (R31); which of several `⊥` ones a fault names is the model's (log 6). -/
def needWork (s : State) (k : Quad → Result) : Result :=
  need .a s.a fun a => need .b s.b fun b => need .c s.c fun c => need .d s.d fun d => k ⟨a, b, c, d⟩

/-- Read the accumulators A0, B0, C0 and D0 (R33). -/
def needAcc (s : State) (k : Quad → Result) : Result :=
  need .a0 s.a0 fun a => need .b0 s.b0 fun b => need .c0 s.c0 fun c => need .d0 s.d0 fun d => k ⟨a, b, c, d⟩

/-- The initial values IV[0..3] (R67). -/
def ivQuad : Quad := ⟨ivA, ivB, ivC, ivD⟩

/-- `+32` component by component (R190). -/
def Quad.add (x y : Quad) : Quad := ⟨x.a + y.a, x.b + y.b, x.c + y.c, x.d + y.d⟩

end Sys2Proof.Machine
end

