-- ==== Sys2Proof/Machine/Assembler.lean ====
section
/-! DEFINITION. The Digest Assembler: FINAL (spec/44_digest_assembler.md R190) and the output digest_out (R191, and
spec/40_interface.md R127). -/

namespace Sys2Proof.Machine

/-- FINAL: `A0 <- A0 +32 A` and the same for B0, C0 and D0, then PH <- DONE (R190). A..D keep their values (U11). -/
def execFinal (s : State) : Result :=
  needWork s fun q =>
    needAcc s fun r =>
      .next ({ s with ph := .val .done }.setAcc (r.add q))

/-- The 16 bytes Z: A0, B0, C0, D0, each serialised little-endian (R191). -/
def digestBytes (acc : Quad) : List Byte :=
  [acc.a, acc.b, acc.c, acc.d].flatMap fun x => (List.range 4).map (byteOf x)

/-- The byte sequence Z read most significant byte first: `digest_out[127-8t : 120-8t] = Z[t]` (R191). -/
def serialise (acc : Quad) : Digest :=
  (digestBytes acc).foldl (fun v z => (v <<< 8) ||| z.setWidth 128) 0

/-- The four accumulators as one value; `⊥` if one of them is. -/
def State.accumulators (s : State) : Elem Quad :=
  Elem.map2 (fun p q => ⟨p.1, p.2, q.1, q.2⟩) (Elem.map2 Prod.mk s.a0 s.b0) (Elem.map2 Prod.mk s.c0 s.d0)

/-- The output `digest_out`: the digest while PH = DONE, `⊥` in every other phase and at power-up (R127). -/
def State.digestOut (s : State) : Elem Digest :=
  match s.ph with
  | .val .done => Elem.map serialise s.accumulators
  | _ => .bot

/-- The first `k` hex digits of a digest, as a number: `digest_out >> (128 - 4k)`; 0 for k = 0 (R193). -/
def hexPrefix (v : Digest) (k : Nat) : Digest := v >>> (128 - 4 * k)

/-- A host read of an output: its value, or a model fault where the output is `⊥` (R127, R210;
spec/93_implementation_defined.md U2: "`fault` on any read"). A read takes no step and has no side effect (R73, R107). -/
def readOutput {α : Type} (e : Element) (x : Elem α) : Except Fault α :=
  match x with
  | .bot => .error (.readBottom e)
  | .val v => .ok v

/-- The host reads `digest_out` (R127). -/
def readDigest (s : State) : Except Fault Digest := readOutput .digestOut s.digestOut

end Sys2Proof.Machine
end

