-- ==== Sys2Proof/Machine/Operands.lean ====
section
/-! DEFINITION. The operands of the operations: the message-word index (spec/30_encoding.md R97), the word view W
(spec/42_word_loader.md R150), the length operand (R99) and the padded block (spec/41_block_builder.md R141). -/

namespace Sys2Proof.Machine

/-! ## The message-word index g (R97): 4 bits, so every line is taken mod 16 -/

/-- Quarter 0: `g = i`, which is `RI[3:0]` because i < 16. -/
def wordIndexF (i : RoundIndex) : BitVec 4 := i.extractLsb' 0 4

/-- Quarter 1: `g = (5i + 1) mod 16`. -/
def wordIndexG (i : RoundIndex) : BitVec 4 := BitVec.ofNat 4 ((5 * i.toNat + 1) % 16)

/-- Quarter 2: `g = (3i + 5) mod 16`. -/
def wordIndexH (i : RoundIndex) : BitVec 4 := BitVec.ofNat 4 ((3 * i.toNat + 5) % 16)

/-- Quarter 3: `g = (7i) mod 16`. -/
def wordIndexI (i : RoundIndex) : BitVec 4 := BitVec.ofNat 4 ((7 * i.toNat) % 16)

/-! ## The word view -/

/-- `W[j] = MemRead(4j, 4)`, a view of BLK and no storage (R35, R150). -/
def wordView (blk : Memory) (j : BitVec 4) : Elem Word :=
  Elem.map (BitVec.ofNat 32) (memRead blk (4 * j.toNat) 4)

/-! ## The padded block -/

/-- `bitlen = zext_64(n) * 8` (R99). -/
def bitLength (n : Nat) : BitVec 64 := BitVec.ofNat 64 n * 8

/-- `Pad(MSG, n)` for the n bytes `bytes = MSG[0..n-1]`, n ≤ 55: the four writes of R141, each byte of the block once. -/
def pad (bytes : List Byte) : Memory :=
  let n := bytes.length
  let withMessage := writeBytes [] 0 bytes
  let withMark := writeByte withMessage n 0x80
  let withZeros := writeBytes withMark (n + 1) (List.replicate (Config.maxLen - n) 0x00)
  memWrite withZeros Config.lengthFieldOffset Config.lengthFieldBytes (bitLength n).toNat

end Sys2Proof.Machine
end

