-- ==== Sys2Proof/Machine/Builder.lean ====
section
/-! DEFINITION. The Block Builder: BUILD (spec/41_block_builder.md R140). -/

namespace Sys2Proof.Machine

/-- BUILD: BLK <- Pad(MSG, LEN), A..D and A0..D0 <- IV, RI <- 0, PH <- ROUND (R140). It reads LEN and MSG[0..LEN-1] only
(R143). `Pad` is undefined for a LEN above 55, which no run brings to BUILD (R201, log 5). -/
def execBuild (s : State) : Result :=
  need .len s.len fun n =>
    if inputTooLong n then .fault .padUndefined
    else need .msg (readBytes s.msg 0 n.toNat) fun bytes =>
      .next (({ s with blk := pad bytes, ri := .val 0, ph := .val .round }.setWork ivQuad).setAcc ivQuad)

end Sys2Proof.Machine
end

