-- ==== Sys2Proof/Machine/Interface.lean ====
section
/-! DEFINITION. The host-interface operations HOLD and START (spec/40_interface.md R120, R121), RESET
(spec/70_reset_and_hazards.md R230) and the model-only PH_RESERVED (spec/60_exceptions.md R210). -/

namespace Sys2Proof.Machine

/-- RESET: PH <- IDLE, CAUSE <- 00, every other element <- `⊥` (R230). The tables are ROM and the input samples are the
host's, so neither is touched (R232, log 2). -/
def execReset (s : State) : Result :=
  .next { State.reset with inputs := s.inputs }

/-- HOLD: no element of the state changes (R120). -/
def execHold (s : State) : Result := .next s

/-- START: latch the request and check its length in the same step, before any block is built (R121, R202). -/
def execStart (s : State) : Result :=
  let p := s.sample
  if inputTooLong p.lenIn then .next (raiseInputTooLong p s)
  else .next { latchRequest p s with cause := .val .none, ph := .val .build }

/-- PH_RESERVED: "No behaviour is given, and the model faults" (R210). -/
def execPhReserved (_ : State) : Result := .fault .phReserved

end Sys2Proof.Machine
end

