-- ==== Sys2Proof/Machine/Rounds.lean ====
section
/-! DEFINITION. The Compression Core: ROUND_F, ROUND_G, ROUND_H and ROUND_I (spec/43_compression_rounds.md). -/

namespace Sys2Proof.Machine

/-! ## The nonlinear functions -/

/-- `F(b, c, d) = (b AND c) OR ((NOT b) AND d)` (R160). -/
def fnF (b c d : Word) : Word := (b &&& c) ||| (~~~b &&& d)

/-- `G(b, c, d) = (b AND d) OR (c AND (NOT d))` (R161). -/
def fnG (b c d : Word) : Word := (b &&& d) ||| (c &&& ~~~d)

/-- `H(b, c, d) = b XOR c XOR d` (R162). -/
def fnH (b c d : Word) : Word := b ^^^ c ^^^ d

/-- `I(b, c, d) = c XOR (b OR (NOT d))` (R163). -/
def fnI (b c d : Word) : Word := c ^^^ (b ||| ~~~d)

/-! ## The shared datapath -/

/-- `temp = f +32 A +32 K[i] +32 W[g]` (R164). -/
def roundTemp (fn : Word → Word → Word → Word) (i : RoundIndex) (w : Word) (q : Quad) : Word :=
  fn q.b q.c q.d + q.a + roundConstant i + w

/-- `A <- D; B <- B +32 rotl32(temp, S[i]); C <- B; D <- C`, all from the pre-round snapshot (R164). -/
def roundUpdate (fn : Word → Word → Word → Word) (i : RoundIndex) (w : Word) (q : Quad) : Quad :=
  { a := q.d
    b := q.b + rotl32 (roundTemp fn i w q) (rotationAmount i)
    c := q.b
    d := q.c }

/-- `if RI < 63: RI <- RI + 1 else: PH <- FINAL`, where i = RI (R169). -/
def advanceRound (i : RoundIndex) (s : State) : State :=
  if i < 63 then { s with ri := .val (i + 1) } else { s with ph := .val .final }

/-- One round with the quarter's function `fn` and the word index `g`: the datapath of R164, then R169, in one step. The
round number is the operation's operand, which the decoder takes from RI (R95, log 4). -/
def roundOp (fn : Word → Word → Word → Word) (g : BitVec 4) (i : RoundIndex) (s : State) : Result :=
  needWork s fun q =>
    need .blk (wordView s.blk g) fun w =>
      .next (advanceRound i (s.setWork (roundUpdate fn i w q)))

/-! ## The four operations -/

/-- ROUND_F: function F and `g = i` (R165). -/
def execRoundF (i : RoundIndex) (s : State) : Result := roundOp fnF (wordIndexF i) i s

/-- ROUND_G: function G and `g = (5i + 1) mod 16` (R166). -/
def execRoundG (i : RoundIndex) (s : State) : Result := roundOp fnG (wordIndexG i) i s

/-- ROUND_H: function H and `g = (3i + 5) mod 16` (R167). -/
def execRoundH (i : RoundIndex) (s : State) : Result := roundOp fnH (wordIndexH i) i s

/-- ROUND_I: function I and `g = (7i) mod 16` (R168). -/
def execRoundI (i : RoundIndex) (s : State) : Result := roundOp fnI (wordIndexI i) i s

end Sys2Proof.Machine
end

