-- ==== Sys2Proof/Machine/Dispatch.lean ====
section
/-! DEFINITION. Which meaning each operation has (spec/30_encoding.md R92). -/

namespace Sys2Proof.Machine

def exec (i : Instr) (s : State) : Host.Outcome State Fault Refusal :=
  match i with
  | .reset => Sys2Proof.Machine.execReset s
  | .phReserved => Sys2Proof.Machine.execPhReserved s
  | .build => Sys2Proof.Machine.execBuild s
  | .roundF n => Sys2Proof.Machine.execRoundF n s
  | .roundG n => Sys2Proof.Machine.execRoundG n s
  | .roundH n => Sys2Proof.Machine.execRoundH n s
  | .roundI n => Sys2Proof.Machine.execRoundI n s
  | .final => Sys2Proof.Machine.execFinal s
  | .start => Sys2Proof.Machine.execStart s
  | .hold => Sys2Proof.Machine.execHold s

end Sys2Proof.Machine
end

