-- ==== Sys2Proof/Machine/Flags.lean ====
section
/-! DEFINITION. The status outputs busy, done, err and cause (spec/40_interface.md R123 to R126). They are functions of
PH and CAUSE and carry no storage, and no arithmetic operation sets a flag (spec/10_state.md R42). An operation writes a
flag by writing PH or CAUSE (R21). While PH or CAUSE is `⊥` (power-up) so is the output (R231). -/

namespace Sys2Proof.Machine

/-- `busy = 1` iff PH is BUILD, ROUND or FINAL (R123). -/
def busyPhase : Phase → Bool
  | .idle => false
  | .build => true
  | .round => true
  | .final => true
  | .done => false
  | .err => false
  | .reserved6 => false
  | .reserved7 => false

/-- The output `busy` (R123). -/
def State.busy (s : State) : Elem Bool := Elem.map busyPhase s.ph

/-- The output `done`: 1 iff PH = DONE (R124). -/
def State.done (s : State) : Elem Bool := Elem.map (fun p => p == .done) s.ph

/-- The output `err`: 1 iff PH = ERR (R125). -/
def State.err (s : State) : Elem Bool := Elem.map (fun p => p == .err) s.ph

/-- The code of a cause (R103). -/
def causeCode : Cause → BitVec 2
  | .none => 0b00
  | .inputTooLong => 0b01
  | .reserved2 => 0b10
  | .reserved3 => 0b11

/-- The output `cause[1:0] = CAUSE` in every phase (R126). -/
def State.causeOut (s : State) : Elem (BitVec 2) := Elem.map causeCode s.cause

end Sys2Proof.Machine
end

