-- ==== Sys2Proof/Machine/Step.lean ====
section
/-! DEFINITION. One step of the engine (spec/30_encoding.md R90): form the selector, decode it, run its operation, and
use up the input sample of the step. -/

namespace Sys2Proof.Machine

/-- One step (R90, R19). -/
def step (s : State) : Host.Outcome State Fault Refusal :=
  match fetch s with
  | .error f => .fault f
  | .ok w =>
    match exec (decodeSel w) s with
    | .next t => .next t.dropSample
    | .fault f => .fault f
    | .refused r => .refused r

/-- The state whose next selector is the word `w` (R91): the input sample gets its `rst` and `start`, PH and RI its other
fields. The engine fetches nothing from memory, so this is all that selects an operation (R77; log 3). -/
def State.withFetchWord (s : State) (nbits w : Nat) : State :=
  let sel : Sel := BitVec.ofNat 11 (w % 2 ^ nbits)
  { s with
    ph := .val (phaseOfCode (sel.extractLsb' 6 3))
    ri := .val (sel.extractLsb' 0 6)
    inputs := { s.sample with rst := sel.getLsbD 10, start := sel.getLsbD 9 } :: s.inputs.tail }

end Sys2Proof.Machine
end

