-- ==== Sys2Proof/Machine/HostProgram.lean ====
section
/-! DEFINITION. The host's line syntax and its pseudo-operations, as data with a runner (spec/30_encoding.md R107, R108;
spec/70_reset_and_hazards.md R237). The engine has no assembler; these lines are what the host does to its ports. -/

namespace Sys2Proof.Machine

/-- An assertion `field=value` of the line EXPECT (R107). -/
inductive Expectation where
  | busy (v : Bool)
  | done (v : Bool)
  | err (v : Bool)
  | cause (v : BitVec 2)
  | digestOut (v : Digest)
deriving DecidableEq, Repr

/-- A line of a host program (R107, R108). Text is given as its ASCII bytes (log 13). -/
inductive HostLine where
  /-- `RESET` -/
  | reset
  /-- `START "text"` -/
  | startText (text : List Byte)
  /-- `START len=n msg=0xHH..` -/
  | startPorts (n : Length) (msg : MsgLanes)
  /-- `STEP n`; `STEP` is `STEP 1`. -/
  | steps (n : Nat)
  /-- `HASH "text"` -/
  | hash (text : List Byte)
  /-- `WAIT` -/
  | wait
  /-- `EXPECT field=value ...` -/
  | expect (what : List Expectation)
deriving DecidableEq, Repr

/-- How a host program ends. -/
inductive HostOutcome where
  /-- Every line ran, to this state. -/
  | ran (s : State)
  /-- A step or a read met a model fault. -/
  | fault (f : Fault)
  /-- A step was refused. -/
  | refused (r : Refusal)
  /-- An EXPECT did not hold. -/
  | unmet (e : Expectation)
  /-- A message of 64 bytes or more: the host rejects it before the port (R237). -/
  | unsendable
  /-- A WAIT saw `busy = 1` for more than 66 steps (R108 says that none does). -/
  | stillBusy
deriving DecidableEq, Repr

/-- The port value of a message: byte k in lane k, the lanes above it 0 (R100, R107). Only 55 lanes exist. -/
def messageLanes (text : List Byte) : MsgLanes :=
  (text.take Config.maxLen).foldr (fun v acc => (acc <<< 8) ||| v.setWidth 440) 0

/-- The sample of `RESET`: rst = 1, and its other fields, which are `x` in R107, are 0 here and read by nothing (R105). -/
def Ports.resetting : Ports := { Ports.quiet with rst := true }

/-- The sample of `START len=n msg=..` (R107). -/
def Ports.request (n : Length) (msg : MsgLanes) : Ports :=
  { rst := false, start := true, lenIn := n, msgIn := msg }

/-- The sample of `START "text"`, none where the length does not fit the port: the host must reject such a message and
never present a truncated length (R237). -/
def textRequest (text : List Byte) : Option Ports :=
  if text.length < 64 then some (Ports.request (BitVec.ofNat 6 text.length) (messageLanes text)) else none

/-- One step with the given sample on the ports. -/
def driveStep (p : Ports) (s : State) : HostOutcome :=
  match step { s with inputs := [p] } with
  | .next t => .ran t
  | .fault f => .fault f
  | .refused r => .refused r

/-- `n` steps with no request (R107, R108). -/
def quietSteps : Nat → State → HostOutcome
  | 0, s => .ran s
  | n + 1, s =>
    match driveStep Ports.quiet s with
    | .ran t => quietSteps n t
    | stop => stop

/-- `STEP` lines until `busy = 0`, at most `fuel` of them (R108). -/
def waitSteps : Nat → State → HostOutcome
  | fuel, s =>
    match readOutput .busy s.busy with
    | .error f => .fault f
    | .ok false => .ran s
    | .ok true =>
      match fuel with
      | 0 => .stillBusy
      | fuel + 1 =>
        match driveStep Ports.quiet s with
        | .ran t => waitSteps fuel t
        | stop => stop

/-- Compare an output with the value an EXPECT gives it; reading a `⊥` output is the fault of R210. -/
def checkOutput {α : Type} [DecidableEq α] (e : Element) (x : Elem α) (v : α) (what : Expectation) (s : State) :
    HostOutcome :=
  match readOutput e x with
  | .error f => .fault f
  | .ok w => if w = v then .ran s else .unmet what

/-- One assertion on the outputs of the current state; it takes no step (R107). -/
def checkExpectation (what : Expectation) (s : State) : HostOutcome :=
  match what with
  | .busy v => checkOutput .busy s.busy v what s
  | .done v => checkOutput .done s.done v what s
  | .err v => checkOutput .err s.err v what s
  | .cause v => checkOutput .cause s.causeOut v what s
  | .digestOut v => checkOutput .digestOut s.digestOut v what s

/-- The assertions of one EXPECT line, in order. -/
def checkAll : List Expectation → State → HostOutcome
  | [], s => .ran s
  | e :: es, s =>
    match checkExpectation e s with
    | .ran t => checkAll es t
    | stop => stop

/-- `START "text"`. -/
def startText (text : List Byte) (s : State) : HostOutcome :=
  match textRequest text with
  | none => .unsendable
  | some p => driveStep p s

/-- One line of a host program (R107, R108): `HASH "text"` is `START "text"` then `STEP 66`. -/
def runLine (line : HostLine) (s : State) : HostOutcome :=
  match line with
  | .reset => driveStep Ports.resetting s
  | .startText text => startText text s
  | .startPorts n msg => driveStep (Ports.request n msg) s
  | .steps n => quietSteps n s
  | .hash text =>
    match startText text s with
    | .ran t => quietSteps 66 t
    | stop => stop
  | .wait => waitSteps 66 s
  | .expect what => checkAll what s

/-- A host program, line by line. -/
def runProgram : List HostLine → State → HostOutcome
  | [], s => .ran s
  | l :: ls, s =>
    match runLine l s with
    | .ran t => runProgram ls t
    | stop => stop

end Sys2Proof.Machine
end

