-- ==== Sys2Proof/Safety.lean ====
section
/-! DEFINITION. The terms the claims use: runs, the function a request computes (spec/44_digest_assembler.md R195), and
the invariants that hold between steps. The function is written from the source's contracts and not from the machine's
memory: its block is a function of the byte offset (spec/20_memory.md R68), its words are four bytes side by side. -/

namespace Sys2Proof.Safety

open Sys2Proof.Machine

/-! ## Runs -/

/-- `n` steps, stopping at the first fault or refusal. -/
def run : Nat → State → Result
  | 0, s => .next s
  | n + 1, s =>
    match step s with
    | .next t => run n t
    | .fault f => .fault f
    | .refused r => .refused r

/-- The sample that the `k`-th coming step takes, counted from 0. -/
def sampleAt (s : State) (k : Nat) : Ports := s.inputs.getD k Ports.quiet

/-! ## The function of a request -/

/-- Byte `k` of the block of message `m` by the map of R68. -/
def blockByte (m : List Byte) (k : Nat) : Byte :=
  if k < m.length then m.getD k 0
  else if k = m.length then 0x80
  else if k < 56 then 0x00
  else (BitVec.ofNat 64 (8 * m.length)).extractLsb' (8 * (k - 56)) 8

/-- `Words(Pad(m, n))`: word `j` is bytes 4j..4j+3, byte 4j the least significant (R150). -/
def blockWord (m : List Byte) (j : BitVec 4) : Word :=
  blockByte m (4 * j.toNat + 3) ++ blockByte m (4 * j.toNat + 2) ++ blockByte m (4 * j.toNat + 1) ++
    blockByte m (4 * j.toNat)

/-- The nonlinear function of a round, by its quarter (R96). -/
def roundFunction (i : RoundIndex) : Word → Word → Word → Word :=
  match (quarter i).toNat with
  | 0 => fnF
  | 1 => fnG
  | 2 => fnH
  | _ => fnI

/-- The word index of a round, by its quarter (R97). -/
def wordIndex (i : RoundIndex) : BitVec 4 :=
  match (quarter i).toNat with
  | 0 => wordIndexF i
  | 1 => wordIndexG i
  | 2 => wordIndexH i
  | _ => wordIndexI i

/-- The operation of round `i` (R96). -/
def roundInstr (i : RoundIndex) : Instr :=
  match (quarter i).toNat with
  | 0 => .roundF i
  | 1 => .roundG i
  | 2 => .roundH i
  | _ => .roundI i

/-- The working registers after rounds 0..n-1 over the words `w`, starting from IV (R173). -/
def compressRounds (w : BitVec 4 → Word) : Nat → Quad
  | 0 => ivQuad
  | n + 1 =>
    let i : RoundIndex := BitVec.ofNat 6 n
    roundUpdate (roundFunction i) i (w (wordIndex i)) (compressRounds w n)

/-- `Compress(W)`: all 64 rounds (R173). -/
def compress (w : BitVec 4 → Word) : Quad := compressRounds w Config.rounds

/-- `MD5_1(m) = Serialise(IV +32 Compress(Words(Pad(m, n))))` (R195). -/
def md5One (m : List Byte) : Digest := serialise (ivQuad.add (compress (blockWord m)))

/-- The message a request presents: lanes 0..len_in-1 of `msg_in` (R100). -/
def requestMessage (p : Ports) : List Byte := (List.range p.lenIn.toNat).map (lane p.msgIn)

/-! ## Invariants -/

/-- The working registers hold `q`. -/
abbrev WorkIs (s : State) (q : Quad) : Prop :=
  s.a = .val q.a ∧ s.b = .val q.b ∧ s.c = .val q.c ∧ s.d = .val q.d

/-- The accumulators hold `q`. -/
abbrev AccIs (s : State) (q : Quad) : Prop :=
  s.a0 = .val q.a ∧ s.b0 = .val q.b ∧ s.c0 = .val q.c ∧ s.d0 = .val q.d

/-- The legal shape of a state after the first RESET: PH holds one of its six codes (R94), CAUSE is 01 exactly while
PH = ERR and 00 otherwise (R126), and both memories are in canonical form, with no address outside their space (R61). -/
abbrev Shape (s : State) : Prop :=
  s.ph ≠ .bot ∧ s.ph ≠ .val .reserved6 ∧ s.ph ≠ .val .reserved7 ∧
  s.cause = .val (if s.ph = .val .err then .inputTooLong else .none) ∧
  Memory.wf Config.maxLen s.msg = true ∧ Memory.wf Config.blockBytes s.blk = true

/-- Message `m`, of a legal length, is latched (R36, R37). -/
abbrev Latched (s : State) (m : List Byte) : Prop :=
  m.length ≤ Config.maxLen ∧ s.len = .val (BitVec.ofNat 6 m.length) ∧ readBytes s.msg 0 m.length = .val m

/-- How far the request has come, by phase: what every phase reads has been written, and holds what the request's own
message gives it (R47, R151, R170, R173, R195). -/
def Tracks (s : State) : Prop :=
  match s.ph with
  | .val .idle => True
  | .val .build => ∃ m, Latched s m
  | .val .round =>
    ∃ m i, Latched s m ∧ s.blk = pad m ∧ s.ri = .val i ∧ AccIs s ivQuad ∧
      WorkIs s (compressRounds (blockWord m) i.toNat)
  | .val .final =>
    ∃ m, Latched s m ∧ s.blk = pad m ∧ s.ri = .val 63 ∧ AccIs s ivQuad ∧ WorkIs s (compress (blockWord m))
  | .val .done => ∃ m, Latched s m ∧ AccIs s (ivQuad.add (compress (blockWord m)))
  | .val .err => ∃ n : Length, s.len = .val n ∧ Config.maxLen < n.toNat
  | .val .reserved6 => False
  | .val .reserved7 => False
  | .bot => False

/-- PH is one of the phases in which the host is served: IDLE, DONE or ERR (R235). -/
abbrev Waiting (s : State) : Prop := s.ph = .val .idle ∨ s.ph = .val .done ∨ s.ph = .val .err

/-- PH is one of the busy phases BUILD, ROUND, FINAL (R123). -/
abbrev Busy (s : State) : Prop := s.ph = .val .build ∨ s.ph = .val .round ∨ s.ph = .val .final

/-- Two states with the same values in everything but the input samples. -/
abbrev SameEngine (s t : State) : Prop := { s with inputs := [] } = { t with inputs := [] }

end Sys2Proof.Safety
end

