-- ==== Sys2Proof/Certificates/Slice0/Obligations.lean ====
section
/-! DEFINITION. The statements for the provers. Each docstring names the rule of spec/ a statement formalises. -/

open Sys2Proof Sys2Proof.Machine Sys2Proof.Safety

/-! ## Encoding -/

/-- Selectors written out bit by bit from the patterns of R92 and the tables of 95_test_vectors.md section 2.7, one or more
for each row. -/
def Obligations.SelectorWordsDecodeToTheirRows : Prop :=
  decodeSel 0b10000000000#11 = .reset ∧
  decodeSel 0b11010010100#11 = .reset ∧
  decodeSel 0b00110000000#11 = .phReserved ∧
  decodeSel 0b01111000000#11 = .phReserved ∧
  decodeSel 0b00001111111#11 = .build ∧
  decodeSel 0b01010001010#11 = .roundF 10 ∧
  decodeSel 0b00010011111#11 = .roundG 31 ∧
  decodeSel 0b00010100000#11 = .roundH 32 ∧
  decodeSel 0b00010111111#11 = .roundI 63 ∧
  decodeSel 0b01011111111#11 = .final ∧
  decodeSel 0b01000000000#11 = .start ∧
  decodeSel 0b01100111111#11 = .start ∧
  decodeSel 0b00101000000#11 = .hold

/-- Decode of encode is the identity on every well-formed operation, at every operand value; and every selector that
decodes to an operation agrees with its encoding on the bits its row reads (R92). -/
def Obligations.DecodeInvertsEncode : Prop :=
  ∀ i : Instr, i.wf = true →
    decodeSel (encode i) = i ∧ ∀ w : Sel, decodeSel w = i → w &&& careMask i = encode i

/-- R92: which selectors each row takes after the rows before it, by the fields of R91. -/
def Obligations.EverySelectorFallsToOneRow : Prop :=
  ∀ w : Sel,
    let rst := w.getLsbD 10
    let start := w.getLsbD 9
    let ph : BitVec 3 := w.extractLsb' 6 3
    let ri : RoundIndex := w.extractLsb' 0 6
    (decodeSel w = .reset ↔ rst = true) ∧
    (decodeSel w = .phReserved ↔ rst = false ∧ (ph = 0b110 ∨ ph = 0b111)) ∧
    (decodeSel w = .build ↔ rst = false ∧ ph = 0b001) ∧
    (∀ i, decodeSel w = .roundF i ↔ rst = false ∧ ph = 0b010 ∧ ri = i ∧ i.toNat < 16) ∧
    (∀ i, decodeSel w = .roundG i ↔ rst = false ∧ ph = 0b010 ∧ ri = i ∧ 16 ≤ i.toNat ∧ i.toNat < 32) ∧
    (∀ i, decodeSel w = .roundH i ↔ rst = false ∧ ph = 0b010 ∧ ri = i ∧ 32 ≤ i.toNat ∧ i.toNat < 48) ∧
    (∀ i, decodeSel w = .roundI i ↔ rst = false ∧ ph = 0b010 ∧ ri = i ∧ 48 ≤ i.toNat) ∧
    (decodeSel w = .final ↔ rst = false ∧ ph = 0b011) ∧
    (decodeSel w = .start ↔ rst = false ∧ start = true ∧ (ph = 0b000 ∨ ph = 0b100 ∨ ph = 0b101)) ∧
    (decodeSel w = .hold ↔ rst = false ∧ start = false ∧ (ph = 0b000 ∨ ph = 0b100 ∨ ph = 0b101))

/-- R106: a number with a bit above bit 10 is no selector and is rejected by name; every other number is decoded. The
rejection of wider numbers is the model's (log 14). -/
def Obligations.OnlySelectorsDecode : Prop :=
  ∀ w : Nat,
    (w < 2 ^ 11 → decodeWord w = .ok (decodeSel (BitVec.ofNat 11 w))) ∧
    (2 ^ 11 ≤ w → decodeWord w = .error .widerThanSelector)

/-! ## The selector and the step -/

/-- R91: the four fields of SEL; and where a row that reads no RI can match (outside PH = ROUND, or with `rst = 1`), a `⊥`
RI is decoded as don't-care. -/
def Obligations.SelectorIsFormedFromPortsPhaseAndIndex : Prop :=
  ∀ (s : State) (p : Phase), s.ph = .val p →
    (∀ i, s.ri = .val i →
      ∃ w, fetch s = .ok w ∧ w.getLsbD 10 = s.sample.rst ∧ w.getLsbD 9 = s.sample.start ∧
        w.extractLsb' 6 3 = phaseCode p ∧ w.extractLsb' 0 6 = i) ∧
    (s.ri = .bot → p ≠ .round ∨ s.sample.rst = true →
      ∃ w, fetch s = .ok w ∧ w.getLsbD 10 = s.sample.rst ∧ w.getLsbD 9 = s.sample.start ∧
        w.extractLsb' 6 3 = phaseCode p ∧
        ∀ i : RoundIndex, decodeSel w = decodeSel (selOf s.sample.rst s.sample.start p i))

/-- R90: a step runs the operation its selector decodes to, which is well formed, and around it does one thing: the input
sample of the step is used up (log 2). -/
def Obligations.StepRunsTheDecodedOperation : Prop :=
  ∀ (s : State) (w : Sel), fetch s = .ok w →
    (decodeSel w).wf = true ∧
    (∀ t, exec (decodeSel w) s = .next t → step s = .next { t with inputs := s.inputs.tail }) ∧
    (∀ f, exec (decodeSel w) s = .fault f → step s = .fault f)

/-- The state `withFetchWord` makes runs exactly the decoded operation, and differs from the old state in the fields the
selector is formed from only (the model's, log 3). -/
def Obligations.FetchWordSelectsItsOperation : Prop :=
  ∀ (s : State) (nbits w : Nat) (i : Instr), decodeTableWord nbits w = some i →
    (∃ v, fetch (s.withFetchWord nbits w) = .ok v ∧ decodeSel v = i) ∧
    { s.withFetchWord nbits w with ph := s.ph, ri := s.ri, inputs := s.inputs } = s ∧
    (s.withFetchWord nbits w).sample.lenIn = s.sample.lenIn ∧
    (s.withFetchWord nbits w).sample.msgIn = s.sample.msgIn ∧
    (s.withFetchWord nbits w).inputs.tail = s.inputs.tail

/-- R209: which of several simultaneous events happens, and that no cause but InputTooLong is among them. -/
def Obligations.PriorityOfSimultaneousEvents : Prop :=
  ∀ s : State,
    (s.sample.rst = true → ∃ w, fetch s = .ok w ∧ decodeSel w = .reset) ∧
    (s.sample.rst = false → s.ph = .val .build → ∃ w, fetch s = .ok w ∧ decodeSel w = .build) ∧
    (∀ i, s.sample.rst = false → s.ph = .val .round → s.ri = .val i →
      ∃ w, fetch s = .ok w ∧ decodeSel w = roundInstr i) ∧
    (s.sample.rst = false → s.ph = .val .final → ∃ w, fetch s = .ok w ∧ decodeSel w = .final) ∧
    (s.sample.rst = false → Waiting s → s.sample.start = true → ∃ w, fetch s = .ok w ∧ decodeSel w = .start) ∧
    (s.sample.rst = false → Waiting s → s.sample.start = false → ∃ w, fetch s = .ok w ∧ decodeSel w = .hold) ∧
    (∀ t, exec .start s = .next t → t.cause = .val .none ∨ t.cause = .val .inputTooLong)

/-- No operation and no step is refused. -/
def Obligations.NothingIsRefused : Prop :=
  ∀ (s : State) (r : Refusal), (∀ i : Instr, exec i s ≠ .refused r) ∧ step s ≠ .refused r

/-! ## RESET, power-up, HOLD, START -/

/-- R230: RESET writes every element, in every phase and with any other input, from power-up too, and is idempotent. -/
def Obligations.ResetWritesTheResetState : Prop :=
  ∀ s : State, ∃ t, exec .reset s = .next t ∧
    t.ph = .val .idle ∧ t.cause = .val .none ∧ t.ri = .bot ∧ t.len = .bot ∧
    (∀ x, readByte t.msg x = .bot) ∧ (∀ x, readByte t.blk x = .bot) ∧
    t.a = .bot ∧ t.b = .bot ∧ t.c = .bot ∧ t.d = .bot ∧
    t.a0 = .bot ∧ t.b0 = .bot ∧ t.c0 = .bot ∧ t.d0 = .bot ∧
    t.inputs = s.inputs ∧
    t.busy = .val false ∧ t.done = .val false ∧ t.err = .val false ∧ t.causeOut = .val 0b00 ∧ t.digestOut = .bot ∧
    exec .reset t = .next t ∧
    (s.sample.rst = true → step s = .next { t with inputs := s.inputs.tail })

/-- R231: at power-up every element is `⊥`; a RESET step goes to the reset state and any other step faults. -/
def Obligations.PowerUpNeedsReset : Prop :=
  (State.powerUp.ph = .bot ∧ State.powerUp.ri = .bot ∧ State.powerUp.cause = .bot ∧ State.powerUp.len = .bot ∧
    (∀ x, readByte State.powerUp.msg x = .bot) ∧ (∀ x, readByte State.powerUp.blk x = .bot) ∧
    State.powerUp.a = .bot ∧ State.powerUp.b = .bot ∧ State.powerUp.c = .bot ∧ State.powerUp.d = .bot ∧
    State.powerUp.a0 = .bot ∧ State.powerUp.b0 = .bot ∧ State.powerUp.c0 = .bot ∧ State.powerUp.d0 = .bot) ∧
  ∀ l : List Ports,
    let s : State := { State.powerUp with inputs := l }
    (s.sample.rst = true → step s = .next { State.reset with inputs := l.tail }) ∧
    (s.sample.rst = false → step s = .fault .stepBeforeReset)

/-- R120: HOLD changes no element; in IDLE, DONE and ERR a step without a request is HOLD, and in no other phase. -/
def Obligations.HoldChangesNothing : Prop :=
  ∀ s : State,
    exec .hold s = .next s ∧
    (Waiting s → s.sample.rst = false → s.sample.start = false →
      step s = .next { s with inputs := s.inputs.tail }) ∧
    (∀ w, fetch s = .ok w → decodeSel w = .hold → Waiting s)

/-- R121: START latches all 55 lanes and the length, and goes to BUILD or raises InputTooLong; the accumulators still hold
the previous digest; and it is reached from IDLE, DONE and ERR only. -/
def Obligations.StartLatchesAndChecksTheLength : Prop :=
  ∀ s : State, (∀ w, fetch s = .ok w → decodeSel w = .start → Waiting s) ∧ ∃ t, exec .start s = .next t ∧
    (∀ k < 55, readByte t.msg k = .val (s.sample.msgIn.extractLsb' (8 * k) 8)) ∧
    t.len = .val s.sample.lenIn ∧ t.a0 = s.a0 ∧ t.b0 = s.b0 ∧ t.c0 = s.c0 ∧ t.d0 = s.d0 ∧
    (s.sample.lenIn.toNat ≤ 55 →
      t.ph = .val .build ∧ t.cause = .val .none ∧ t.busy = .val true ∧ t.done = .val false ∧ t.err = .val false ∧
        t.causeOut = .val 0b00 ∧ t.digestOut = .bot) ∧
    (55 < s.sample.lenIn.toNat →
      t.ph = .val .err ∧ t.cause = .val .inputTooLong ∧ t.busy = .val false ∧ t.done = .val false ∧
        t.err = .val true ∧ t.causeOut = .val 0b01)

/-- The frame of START (R48): RI, BLK, A..D and A0..D0 are unchanged, and of MSG exactly the 55 bytes of its space are
stored, whatever MSG held. -/
def Obligations.StartFrame : Prop :=
  ∀ s t : State, exec .start s = .next t →
    t.ri = s.ri ∧ (∀ x, readByte t.blk x = readByte s.blk x) ∧ t.blk = s.blk ∧
    t.a = s.a ∧ t.b = s.b ∧ t.c = s.c ∧ t.d = s.d ∧
    t.a0 = s.a0 ∧ t.b0 = s.b0 ∧ t.c0 = s.c0 ∧ t.d0 = s.d0 ∧ t.inputs = s.inputs ∧
    (Memory.wf 55 s.msg = true → ∀ x, 55 ≤ x → readByte t.msg x = readByte s.msg x)

/-- R201 and R203: the condition of InputTooLong on `len_in`, and all that raising it writes. -/
def Obligations.InputTooLongIsTakenAsARejection : Prop :=
  ∀ s : State,
    (55 < s.sample.lenIn.toNat ↔ s.sample.lenIn.extractLsb' 3 3 = 0b111) ∧
    (55 < s.sample.lenIn.toNat →
      ∃ m, exec .start s =
          .next { s with msg := m, len := .val s.sample.lenIn, cause := .val .inputTooLong, ph := .val .err } ∧
        ∀ k < 55, readByte m k = .val (s.sample.msgIn.extractLsb' (8 * k) 8))

/-- R204 and R205: the rejected request leaves no digest, and ERR is left by START or RESET only. -/
def Obligations.ErrorIsLeftByStartOrReset : Prop :=
  ∀ s : State, s.ph = .val .err →
    s.digestOut = .bot ∧
    (s.sample.rst = false → s.sample.start = false →
      ∃ t, step s = .next t ∧ t.ph = .val .err ∧ t.cause = s.cause) ∧
    (s.sample.rst = false → s.sample.start = true → s.sample.lenIn.toNat ≤ 55 →
      ∃ t, step s = .next t ∧ t.ph = .val .build ∧ t.cause = .val .none) ∧
    (s.sample.rst = false → s.sample.start = true → 55 < s.sample.lenIn.toNat →
      ∃ t, step s = .next t ∧ t.ph = .val .err ∧ t.cause = .val .inputTooLong) ∧
    (s.sample.rst = true →
      ∃ t, step s = .next t ∧ t.ph = .val .idle ∧ t.cause = .val .none)

/-- R122: in a busy phase the step performs a busy operation, and is the same whatever `start`, `len_in` and `msg_in`
are. -/
def Obligations.StartWhileBusyLeavesNoTrace : Prop :=
  ∀ (s : State) (p q : Ports) (l : List Ports), Busy s → p.rst = false → q.rst = false →
    step { s with inputs := p :: l } = step { s with inputs := q :: l } ∧
    ∀ w, fetch { s with inputs := p :: l } = .ok w →
      decodeSel w = .build ∨ (∃ i, decodeSel w = roundInstr i) ∨ decodeSel w = .final

/-- R238: with `start` held, the step after DONE or ERR is a new START, on the then-current ports, and the digest is gone. -/
def Obligations.HeldStartStartsAgain : Prop :=
  ∀ s : State, s.ph = .val .done ∨ s.ph = .val .err → s.sample.rst = false → s.sample.start = true →
    ∃ t, step s = .next t ∧ t.len = .val s.sample.lenIn ∧
      (∀ k < 55, readByte t.msg k = .val (s.sample.msgIn.extractLsb' (8 * k) 8)) ∧
      (t.ph = .val .build ∨ t.ph = .val .err) ∧ t.digestOut = .bot

/-! ## BUILD, the block and the word view -/

/-- R140: BUILD, its selectors and what it writes, with the initial values of R67; the status outputs are as before. -/
def Obligations.BuildLoadsBlockAndRegisters : Prop :=
  ∀ (s : State) (n : Length) (m : List Byte), s.len = .val n → n.toNat ≤ 55 →
    readBytes s.msg 0 n.toNat = .val m →
    (∀ start i, decodeSel (selOf false start .build i) = .build) ∧
    ∃ t, exec .build s = .next t ∧
      t.busy = .val true ∧ t.done = .val false ∧ t.err = .val false ∧ t.causeOut = s.causeOut ∧
      t = { s with
        blk := pad m
        a := .val 0x67452301, b := .val 0xefcdab89, c := .val 0x98badcfe, d := .val 0x10325476
        a0 := .val 0x67452301, b0 := .val 0xefcdab89, c0 := .val 0x98badcfe, d0 := .val 0x10325476
        ri := .val 0, ph := .val .round }

/-- Where BUILD stops: on a `⊥` LEN or a `⊥` byte of MSG[0..LEN-1] (R210), and on a LEN above 55, for which `Pad` is
undefined (R141; the named fault is the model's, log 5). -/
def Obligations.BuildStopsOnlyWithoutALegalMessage : Prop :=
  ∀ s : State,
    (s.len = .bot → exec .build s = .fault (.readBottom .len)) ∧
    (∀ n : Length, s.len = .val n → 55 < n.toNat → exec .build s = .fault .padUndefined) ∧
    (∀ n : Length, s.len = .val n → n.toNat ≤ 55 → (∃ k < n.toNat, readByte s.msg k = .bot) →
      exec .build s = .fault (.readBottom .msg)) ∧
    (∀ n : Length, s.len = .val n → n.toNat ≤ 55 → (∀ k < n.toNat, readByte s.msg k ≠ .bot) →
      ∃ t, exec .build s = .next t)

/-- The frame of BUILD (R48): CAUSE, MSG and LEN are unchanged; of BLK all 64 bytes are stored. -/
def Obligations.BuildFrame : Prop :=
  ∀ s t : State, exec .build s = .next t →
    t.cause = s.cause ∧ t.len = s.len ∧ t.msg = s.msg ∧ (∀ x, readByte t.msg x = readByte s.msg x) ∧
    t.inputs = s.inputs ∧
    (Memory.wf 64 s.blk = true → ∀ x, 64 ≤ x → readByte t.blk x = readByte s.blk x)

/-- R68: the map of the block after BUILD, for `n = LEN`. -/
def Obligations.BlockMapAfterBuild : Prop :=
  ∀ (s t : State) (n : Length), s.len = .val n → exec .build s = .next t →
    (∀ k < n.toNat, readByte t.blk k = readByte s.msg k) ∧
    readByte t.blk n.toNat = .val 0x80 ∧
    (∀ k, n.toNat < k → k < 56 → readByte t.blk k = .val 0x00) ∧
    memRead t.blk 56 8 = .val (n.toNat * 8) ∧
    (∀ k, 64 ≤ k → readByte t.blk k = .bot)

/-- R142: the invariants of Pad. -/
def Obligations.PadInvariants : Prop :=
  ∀ m : List Byte, m.length ≤ 55 →
    readByte (pad m) m.length = .val 0x80 ∧
    readByte (pad m) 56 = .val (BitVec.ofNat 8 (8 * m.length % 256)) ∧
    readByte (pad m) 57 = .val (BitVec.ofNat 8 (8 * m.length / 256)) ∧ 8 * m.length / 256 ≤ 1 ∧
    (∀ k, 58 ≤ k → k < 64 → readByte (pad m) k = .val 0x00) ∧
    (m.length = 55 → readByte (pad m) 55 = .val 0x80 ∧ readByte (pad m) 56 = .val 0xB8) ∧
    (m = [] → readByte (pad m) 0 = .val 0x80 ∧ ∀ k, 1 ≤ k → k < 64 → readByte (pad m) k = .val 0x00) ∧
    memRead (pad m) 56 8 = .val (m.length * 8)

/-- R150: a word of the view is four bytes, the first the least significant. -/
def Obligations.WordViewIsLittleEndian : Prop :=
  ∀ (blk : Memory) (j : BitVec 4) (b0 b1 b2 b3 : Byte),
    readByte blk (4 * j.toNat) = .val b0 → readByte blk (4 * j.toNat + 1) = .val b1 →
    readByte blk (4 * j.toNat + 2) = .val b2 → readByte blk (4 * j.toNat + 3) = .val b3 →
    wordView blk j =
      .val (BitVec.ofNat 32 (b0.toNat + b1.toNat * 2 ^ 8 + b2.toNat * 2 ^ 16 + b3.toNat * 2 ^ 24)) ∧
    wordView blk j = .val (b3 ++ b2 ++ b1 ++ b0)

/-- R152: the consequences of the block map for W. -/
def Obligations.WordsOfThePaddedBlock : Prop :=
  ∀ m : List Byte, m.length ≤ 55 →
    wordView (pad m) 14 = .val (BitVec.ofNat 32 (8 * m.length)) ∧
    wordView (pad m) 15 = .val 0 ∧
    wordView (pad m) (BitVec.ofNat 4 (m.length / 4)) =
      .val (BitVec.ofNat 32
        (((List.range (m.length % 4)).map fun k => (m.getD (4 * (m.length / 4) + k) 0).toNat * 2 ^ (8 * k)).sum +
          0x80 * 2 ^ (8 * (m.length % 4)))) ∧
    ∀ j : BitVec 4, m.length < 4 * j.toNat → j.toNat ≤ 13 → wordView (pad m) j = .val 0

/-- R18: the value MemRead gives, and what MemWrite leaves to be read, inside and outside. -/
def Obligations.MemReadAfterMemWrite : Prop :=
  (∀ (m : Memory) (addr n : Nat) (f : Nat → Byte), (∀ k < n, readByte m (addr + k) = .val (f k)) →
    memRead m addr n = .val (((List.range n).map fun k => (f k).toNat * 2 ^ (8 * k)).sum)) ∧
  ∀ (m : Memory) (addr n v : Nat),
    (∀ k < n, readByte (memWrite m addr n v) (addr + k) = .val (BitVec.ofNat 8 (v / 2 ^ (8 * k)))) ∧
    memRead (memWrite m addr n v) addr n = .val (v % 2 ^ (8 * n)) ∧
    ∀ x, x < addr ∨ addr + n ≤ x → readByte (memWrite m addr n v) x = readByte m x

/-- R143: BUILD, and so the block, depends on MSG[0..LEN-1] and LEN alone, and on the lanes below `len_in` at START. -/
def Obligations.BlockIgnoresBytesBeyondTheLength : Prop :=
  (∀ (s t : State) (n : Length) (other : Memory), s.len = .val n →
    (∀ k < n.toNat, readByte other k = readByte s.msg k) → exec .build s = .next t →
    exec .build { s with msg := other } = .next { t with msg := other }) ∧
  ∀ (s t u t' u' : State) (p q : Ports) (l : List Ports), p.lenIn = q.lenIn →
    (∀ k < p.lenIn.toNat, lane p.msgIn k = lane q.msgIn k) →
    exec .start { s with inputs := p :: l } = .next t → exec .start { s with inputs := q :: l } = .next u →
    exec .build t = .next t' → exec .build u = .next u' → t'.blk = u'.blk

/-! ## The compression core -/

/-- R160, R161, R162, R163: the four functions bit by bit, with the corner values the rules give. -/
def Obligations.RoundFunctionsBitByBit : Prop :=
  (∀ (b c d : Word) (k : Nat), k < 32 →
    (fnF b c d).getLsbD k = (if b.getLsbD k then c.getLsbD k else d.getLsbD k) ∧
    (fnG b c d).getLsbD k = (if d.getLsbD k then b.getLsbD k else c.getLsbD k) ∧
    (fnH b c d).getLsbD k = (b.getLsbD k ^^ (c.getLsbD k ^^ d.getLsbD k)) ∧
    (fnI b c d).getLsbD k = (c.getLsbD k ^^ (b.getLsbD k || !d.getLsbD k))) ∧
  ∀ b c d x : Word,
    fnF 0 c d = d ∧ fnF 0xFFFFFFFF c d = c ∧ fnF b x x = x ∧
    fnG b c 0 = c ∧ fnG b c 0xFFFFFFFF = b ∧ fnG x x d = x ∧
    fnH x x d = d ∧ fnH 0 0 0 = 0 ∧ fnH 0xFFFFFFFF 0xFFFFFFFF 0xFFFFFFFF = 0xFFFFFFFF ∧
    fnI 0 0 0 = 0xFFFFFFFF ∧ fnI b c 0 = ~~~c ∧ fnI 0 c 0xFFFFFFFF = c

/-- R16: the circular left shift, bit by bit and by the rule's formula, and that it loses no bit (R171). -/
def Obligations.RotationIsCircular : Prop :=
  ∀ n : BitVec 5,
    (∀ x : Word, rotl32 x 0 = x) ∧
    (∀ x : Word, 1 ≤ n.toNat →
      (rotl32 x n).toNat = (x.toNat * 2 ^ n.toNat ||| x.toNat / 2 ^ (32 - n.toNat)) % 2 ^ 32) ∧
    (∀ (x : Word) (k : Nat), k < 32 → (rotl32 x n).getLsbD ((k + n.toNat) % 32) = x.getLsbD k) ∧
    Function.Bijective fun x : Word => rotl32 x n

/-- R65: the rotation table in full, and its range. -/
def Obligations.RotationTable : Prop :=
  ((List.range 64).map fun i => (rotationAmount (BitVec.ofNat 6 i)).toNat) =
      [7, 12, 17, 22, 7, 12, 17, 22, 7, 12, 17, 22, 7, 12, 17, 22] ++
      [5, 9, 14, 20, 5, 9, 14, 20, 5, 9, 14, 20, 5, 9, 14, 20] ++
      [4, 11, 16, 23, 4, 11, 16, 23, 4, 11, 16, 23, 4, 11, 16, 23] ++
      [6, 10, 15, 21, 6, 10, 15, 21, 6, 10, 15, 21, 6, 10, 15, 21] ∧
    ∀ i, 4 ≤ (rotationAmount i).toNat ∧ (rotationAmount i).toNat ≤ 23

/-- The checks of 95_test_vectors.md section 1.2 on the constant table of R66: its length, its sum and its exclusive or,
and its first and last entries. -/
def Obligations.ConstantTableChecksums : Prop :=
  roundConstants.length = 64 ∧
  roundConstants.foldl (· + ·) 0 = 0x27f3a0bc#32 ∧
  roundConstants.foldl (· ^^^ ·) 0 = 0x10e6cc5a#32 ∧
  roundConstant 0 = 0xd76aa478 ∧ roundConstant 16 = 0xf61e2562 ∧ roundConstant 32 = 0xfffa3942 ∧
  roundConstant 48 = 0xf4292244 ∧ roundConstant 63 = 0xeb86d391

/-- R97: the word index of each quarter, and that it runs over all sixteen words exactly once in a quarter. -/
def Obligations.WordIndexSchedule : Prop :=
  (∀ i : RoundIndex,
    (i.toNat < 16 → (wordIndex i).toNat = i.toNat) ∧
    (16 ≤ i.toNat → i.toNat < 32 → (wordIndex i).toNat = (5 * i.toNat + 1) % 16) ∧
    (32 ≤ i.toNat → i.toNat < 48 → (wordIndex i).toNat = (3 * i.toNat + 5) % 16) ∧
    (48 ≤ i.toNat → (wordIndex i).toNat = 7 * i.toNat % 16)) ∧
  ∀ (q : BitVec 2) (g : BitVec 4), ∃ i : RoundIndex, quarter i = q ∧ wordIndex i = g ∧
    ∀ j : RoundIndex, quarter j = q → wordIndex j = g → j = i

/-- R165: ROUND_F, its selectors, its rotations and its result. -/
def Obligations.RoundFResult : Prop :=
  ∀ (s : State) (i : RoundIndex) (a b c d w : Word), i.toNat < 16 →
    s.a = .val a → s.b = .val b → s.c = .val c → s.d = .val d →
    wordView s.blk (BitVec.ofNat 4 i.toNat) = .val w →
    (∀ start, decodeSel (selOf false start .round i) = .roundF i) ∧
    rotationAmount i ∈ ([7, 12, 17, 22] : List (BitVec 5)) ∧
    exec (.roundF i) s =
      .next { s with
        a := .val d
        b := .val (b + rotl32 (((b &&& c) ||| (~~~b &&& d)) + a + roundConstant i + w) (rotationAmount i))
        c := .val b
        d := .val c
        ri := .val (i + 1) }

/-- R166: ROUND_G, its selectors, its rotations and its result. -/
def Obligations.RoundGResult : Prop :=
  ∀ (s : State) (i : RoundIndex) (a b c d w : Word), 16 ≤ i.toNat → i.toNat < 32 →
    s.a = .val a → s.b = .val b → s.c = .val c → s.d = .val d →
    wordView s.blk (BitVec.ofNat 4 ((5 * i.toNat + 1) % 16)) = .val w →
    (∀ start, decodeSel (selOf false start .round i) = .roundG i) ∧
    rotationAmount i ∈ ([5, 9, 14, 20] : List (BitVec 5)) ∧
    exec (.roundG i) s =
      .next { s with
        a := .val d
        b := .val (b + rotl32 (((b &&& d) ||| (c &&& ~~~d)) + a + roundConstant i + w) (rotationAmount i))
        c := .val b
        d := .val c
        ri := .val (i + 1) }

/-- R167: ROUND_H, its selectors, its rotations and its result. -/
def Obligations.RoundHResult : Prop :=
  ∀ (s : State) (i : RoundIndex) (a b c d w : Word), 32 ≤ i.toNat → i.toNat < 48 →
    s.a = .val a → s.b = .val b → s.c = .val c → s.d = .val d →
    wordView s.blk (BitVec.ofNat 4 ((3 * i.toNat + 5) % 16)) = .val w →
    (∀ start, decodeSel (selOf false start .round i) = .roundH i) ∧
    rotationAmount i ∈ ([4, 11, 16, 23] : List (BitVec 5)) ∧
    exec (.roundH i) s =
      .next { s with
        a := .val d
        b := .val (b + rotl32 ((b ^^^ c ^^^ d) + a + roundConstant i + w) (rotationAmount i))
        c := .val b
        d := .val c
        ri := .val (i + 1) }

/-- R168: ROUND_I, its selectors, its rotations and its result; the last round leaves RI at 63 and sets PH to FINAL. -/
def Obligations.RoundIResult : Prop :=
  ∀ (s : State) (i : RoundIndex) (a b c d w : Word), 48 ≤ i.toNat →
    s.a = .val a → s.b = .val b → s.c = .val c → s.d = .val d →
    wordView s.blk (BitVec.ofNat 4 (7 * i.toNat % 16)) = .val w →
    (∀ start, decodeSel (selOf false start .round i) = .roundI i) ∧
    rotationAmount i ∈ ([6, 10, 15, 21] : List (BitVec 5)) ∧
    exec (.roundI i) s =
      .next { s with
        a := .val d
        b := .val (b + rotl32 ((c ^^^ (b ||| ~~~d)) + a + roundConstant i + w) (rotationAmount i))
        c := .val b
        d := .val c
        ri := if i.toNat < 63 then .val (i + 1) else s.ri
        ph := if i.toNat < 63 then s.ph else .val .final }

/-- The frame of the four round operations, of any operand (R48): CAUSE, MSG, LEN, BLK and the accumulators are unchanged;
PH and RI change only as the sequencer moves. -/
def Obligations.RoundsFrame : Prop :=
  ∀ (s t : State) (i : RoundIndex),
    exec (.roundF i) s = .next t ∨ exec (.roundG i) s = .next t ∨ exec (.roundH i) s = .next t ∨
      exec (.roundI i) s = .next t →
    t.cause = s.cause ∧ t.len = s.len ∧ t.msg = s.msg ∧ t.blk = s.blk ∧
    (∀ x, readByte t.msg x = readByte s.msg x) ∧ (∀ x, readByte t.blk x = readByte s.blk x) ∧
    t.a0 = s.a0 ∧ t.b0 = s.b0 ∧ t.c0 = s.c0 ∧ t.d0 = s.d0 ∧ t.inputs = s.inputs ∧
    (t.ph = s.ph ∨ t.ph = .val .final) ∧ (t.ri = s.ri ∨ t.ri = .val (i + 1))

/-- R169: how every round operation advances the sequencer, in the step of the datapath. -/
def Obligations.RoundsAdvanceTheSequencer : Prop :=
  ∀ (s t : State) (i : RoundIndex), s.ri = .val i → exec (roundInstr i) s = .next t →
    (i.toNat < 63 → t.ri = .val (i + 1) ∧ t.ph = s.ph) ∧
    (i.toNat = 63 → t.ph = .val .final ∧ t.ri = .val 63)

/-- Where the round operations and FINAL stop: exactly on a `⊥` operand (R210), and no value of an operand stops one
(R207). RESET, HOLD and START never stop. -/
def Obligations.OnlyBottomOperandsStopTheCore : Prop :=
  ∀ s : State,
    (∀ i : RoundIndex, (∃ f, exec (roundInstr i) s = .fault f) ↔
      s.a = .bot ∨ s.b = .bot ∨ s.c = .bot ∨ s.d = .bot ∨ wordView s.blk (wordIndex i) = .bot) ∧
    ((∃ f, exec .final s = .fault f) ↔
      s.a = .bot ∨ s.b = .bot ∨ s.c = .bot ∨ s.d = .bot ∨
        s.a0 = .bot ∨ s.b0 = .bot ∨ s.c0 = .bot ∨ s.d0 = .bot) ∧
    ∀ f, exec .reset s ≠ .fault f ∧ exec .hold s ≠ .fault f ∧ exec .start s ≠ .fault f

/-- R173: 64 rounds from the initial values compute `Compress(W)`, whatever the rest of the state is, and whatever is on
the ports but a reset. -/
def Obligations.SixtyFourRoundsCompress : Prop :=
  ∀ (s : State) (w : BitVec 4 → Word), s.ph = .val .round → s.ri = .val 0 → WorkIs s ivQuad →
    (∀ j, wordView s.blk j = .val (w j)) → (∀ k < 64, (sampleAt s k).rst = false) →
    ∃ t, run 64 s = .next t ∧ t.ph = .val .final ∧ t.ri = .val 63 ∧ WorkIs t (compress w) ∧
      t.blk = s.blk ∧ t.msg = s.msg ∧ t.len = s.len ∧ t.cause = s.cause ∧
      t.a0 = s.a0 ∧ t.b0 = s.b0 ∧ t.c0 = s.c0 ∧ t.d0 = s.d0 ∧ t.inputs = s.inputs.drop 64

/-! ## FINAL and the digest -/

/-- R190: FINAL, its selectors; it folds, completes the request, and makes the digest valid. -/
def Obligations.FinalFoldsTheAccumulators : Prop :=
  ∀ (s : State) (a b c d a0 b0 c0 d0 : Word),
    s.a = .val a → s.b = .val b → s.c = .val c → s.d = .val d →
    s.a0 = .val a0 → s.b0 = .val b0 → s.c0 = .val c0 → s.d0 = .val d0 →
    (∀ start i, decodeSel (selOf false start .final i) = .final) ∧
    ∃ t, exec .final s = .next t ∧
      t = { s with
        a0 := .val (a0 + a), b0 := .val (b0 + b), c0 := .val (c0 + c), d0 := .val (d0 + d), ph := .val .done } ∧
      t.busy = .val false ∧ t.done = .val true ∧ t.err = .val false ∧ t.causeOut = s.causeOut ∧
      t.digestOut = .val (serialise ⟨a0 + a, b0 + b, c0 + c, d0 + d⟩)

/-- The frame of FINAL (R48): RI, CAUSE, MSG, LEN, BLK and A..D are unchanged. -/
def Obligations.FinalFrame : Prop :=
  ∀ s t : State, exec .final s = .next t →
    t.ri = s.ri ∧ t.cause = s.cause ∧ t.len = s.len ∧ t.msg = s.msg ∧ t.blk = s.blk ∧
    (∀ x, readByte t.msg x = readByte s.msg x) ∧ (∀ x, readByte t.blk x = readByte s.blk x) ∧
    t.a = s.a ∧ t.b = s.b ∧ t.c = s.c ∧ t.d = s.d ∧ t.inputs = s.inputs

/-- R191 and R192: the sixteen bytes of `digest_out` while PH = DONE, and its form by `bswap32`. -/
def Obligations.DigestOutputLayout : Prop :=
  ∀ (s : State) (a0 b0 c0 d0 : Word), s.ph = .val .done →
    s.a0 = .val a0 → s.b0 = .val b0 → s.c0 = .val c0 → s.d0 = .val d0 →
    ∃ v : Digest, s.digestOut = .val v ∧
      (∀ j m : Nat, j < 4 → m < 4 →
        v.extractLsb' (120 - 8 * (4 * j + m)) 8 = ([a0, b0, c0, d0].getD j 0).extractLsb' (8 * m) 8) ∧
      v = bswap32 a0 ++ bswap32 b0 ++ bswap32 c0 ++ bswap32 d0

/-- R127: outside DONE, and at power-up, `digest_out` is `⊥` and a host read of it faults. -/
def Obligations.DigestIsBottomOutsideDone : Prop :=
  ∀ s : State,
    (s.ph ≠ .val .done → s.digestOut = .bot ∧ readDigest s = .error (.readBottom .digestOut)) ∧
    (∀ q, s.ph = .val .done → AccIs s q → readDigest s = .ok (serialise q))

/-- R193: the first k hex digits of the digest, k from 0 to 32; the hex string renders Z[0] first, high digit first. -/
def Obligations.HexPrefixProperty : Prop :=
  ∀ (acc : Quad) (k : Nat), k ≤ 32 →
    (hexPrefix (serialise acc) k).toNat =
      (((digestBytes acc).flatMap fun z => [z.toNat / 16, z.toNat % 16]).take k).foldl (fun v h => 16 * v + h) 0

/-- R44: the status outputs as functions of the state, and their values at reset. -/
def Obligations.StatusOutputs : Prop :=
  (∀ (s : State) (p : Phase), s.ph = .val p →
    s.busy = .val (decide (p = .build ∨ p = .round ∨ p = .final)) ∧
    s.done = .val (decide (p = .done)) ∧ s.err = .val (decide (p = .err)) ∧
    (p ≠ .done → s.digestOut = .bot)) ∧
  (∀ s : State,
    (s.cause = .val .none → s.causeOut = .val 0b00) ∧ (s.cause = .val .inputTooLong → s.causeOut = .val 0b01) ∧
    (s.cause = .val .reserved2 → s.causeOut = .val 0b10) ∧ (s.cause = .val .reserved3 → s.causeOut = .val 0b11)) ∧
  State.reset.busy = .val false ∧ State.reset.done = .val false ∧ State.reset.err = .val false ∧
  State.reset.causeOut = .val 0b00 ∧ State.reset.digestOut = .bot

/-- R34 and R236: while the host only waits, the state in DONE is unchanged, so the digest stays readable. -/
def Obligations.WaitingKeepsTheDigest : Prop :=
  ∀ (n : Nat) (s : State), s.ph = .val .done →
    (∀ k < n, (sampleAt s k).rst = false ∧ (sampleAt s k).start = false) →
    ∃ t, run n s = .next t ∧ SameEngine t s ∧ t.digestOut = s.digestOut

/-! ## The sequencer -/

/-- R39: how each operation advances PH, for every step that answers a next state. -/
def Obligations.PhaseTransitions : Prop :=
  ∀ s t : State, step s = .next t →
    (s.sample.rst = true → t.ph = .val .idle) ∧
    (s.sample.rst = false →
      (Waiting s → s.sample.start = false → t.ph = s.ph) ∧
      (Waiting s → s.sample.start = true →
        t.ph = if s.sample.lenIn.toNat ≤ 55 then .val .build else .val .err) ∧
      (s.ph = .val .build → t.ph = .val .round) ∧
      (∀ i, s.ph = .val .round → s.ri = .val i → t.ph = if i.toNat < 63 then .val .round else .val .final) ∧
      (s.ph = .val .final → t.ph = .val .done))

/-- R40: how RI moves in a step without a reset. -/
def Obligations.RoundIndexTransitions : Prop :=
  ∀ s t : State, s.sample.rst = false → step s = .next t →
    (s.ph = .val .build → t.ri = .val 0) ∧
    (∀ i, s.ph = .val .round → s.ri = .val i → t.ri = if i.toNat < 63 then .val (i + 1) else .val 63) ∧
    (s.ph ≠ .val .build → s.ph ≠ .val .round → t.ri = s.ri) ∧
    ∀ (p : Phase) (start : Bool) (i j : RoundIndex), p ≠ .round →
      decodeSel (selOf false start p i) = decodeSel (selOf false start p j)

/-- R94: no step writes a reserved phase code, no run from the reset state reaches one, and a state that holds one selects
PH_RESERVED and faults, unless the step is a RESET. -/
def Obligations.ReservedPhasesFaultAndAreNeverWritten : Prop :=
  (∀ s t : State, step s = .next t → t.ph ≠ .val .reserved6 ∧ t.ph ≠ .val .reserved7) ∧
  (∀ (l : List Ports) (n : Nat) (t : State), run n { State.reset with inputs := l } = .next t →
    t.ph ≠ .val .reserved6 ∧ t.ph ≠ .val .reserved7) ∧
  ∀ s : State,
    exec .phReserved s = .fault .phReserved ∧
    (s.ph = .val .reserved6 ∨ s.ph = .val .reserved7 → s.sample.rst = false →
      (∃ w, fetch s = .ok w ∧ decodeSel w = .phReserved) ∧ step s = .fault .phReserved)

/-- R240 and R170: the phase and the round number after every step of a legal request, and the one step of a rejected one,
whatever is on the ports after START but a reset. -/
def Obligations.RequestStepCounts : Prop :=
  ∀ s : State, Waiting s → s.sample.rst = false → s.sample.start = true →
    (55 < s.sample.lenIn.toNat → ∃ t, run 1 s = .next t ∧ t.err = .val true) ∧
    (s.sample.lenIn.toNat ≤ 55 → (∀ k, 1 ≤ k → k < 67 → (sampleAt s k).rst = false) →
      (∃ t, run 1 s = .next t ∧ t.ph = .val .build ∧ t.busy = .val true) ∧
      (∀ k < 64, ∃ t, run (2 + k) s = .next t ∧ t.ph = .val .round ∧ t.ri = .val (BitVec.ofNat 6 k) ∧
        t.busy = .val true) ∧
      (∃ t, run 66 s = .next t ∧ t.ph = .val .final ∧ t.busy = .val true) ∧
      ∃ t, run 67 s = .next t ∧ t.ph = .val .done ∧ t.done = .val true)

/-! ## The whole request -/

/-- R195: a legal request that no RESET interrupts ends in DONE after exactly 67 steps with `MD5_1` of its message on
`digest_out`, from any waiting state and whatever else is on the ports after START. -/
def Obligations.RequestComputesTheDigest : Prop :=
  ∀ s : State, Waiting s → s.sample.rst = false → s.sample.start = true → s.sample.lenIn.toNat ≤ 55 →
    (∀ k, 1 ≤ k → k < 67 → (sampleAt s k).rst = false) →
    (∃ t, run 67 s = .next t ∧ t.ph = .val .done ∧ t.cause = .val .none ∧
      t.digestOut = .val (md5One (requestMessage s.sample)) ∧ t.inputs = s.inputs.drop 67) ∧
    ∀ n, 1 ≤ n → n < 67 → ∃ u, run n s = .next u ∧ u.ph ≠ .val .done

/-- The reset state has the legal shape. -/
def Obligations.ShapeHoldsAtReset : Prop :=
  ∀ l : List Ports, Shape { State.reset with inputs := l }

/-- Every step keeps the legal shape: PH on one of its six codes (R94), CAUSE 01 exactly while PH = ERR and 00 otherwise
(R126), and both memories in canonical form with no address outside their spaces (R61). -/
def Obligations.StepKeepsShape : Prop :=
  ∀ s t : State, Shape s → step s = .next t → Shape t

/-- The reset state tracks a request: none has begun. -/
def Obligations.TrackingHoldsAtReset : Prop :=
  ∀ l : List Ports, Tracks { State.reset with inputs := l }

/-- From a state that tracks its request, every step completes and the next state tracks its request: no `⊥` is read
(R47), and the block, the registers and the accumulators hold what the latched message gives them (R151, R170, R173). -/
def Obligations.StepsKeepTrackingTheRequest : Prop :=
  ∀ s : State, Tracks s → ∃ t, step s = .next t ∧ Tracks t

/-- R47: reading `⊥` is a fault, and no run reads it that starts with a RESET, from any state (power-up among them),
whatever the host puts on the ports after it: no step of such a run ever faults. -/
def Obligations.RunsFromResetReadNoBottom : Prop :=
  (∀ (e : Element) (k : Word → Result), need e .bot k = .fault (.readBottom e)) ∧
  ∀ (s : State) (n : Nat), s.sample.rst = true → ∃ t, run n s = .next t

/-- Whenever `done = 1` on a state that tracks its request, `digest_out` is `MD5_1` of the message the latch holds. -/
def Obligations.DoneShowsTheDigestOfTheLatchedMessage : Prop :=
  ∀ s : State, Tracks s → s.done = .val true →
    ∃ m, Latched s m ∧ s.digestOut = .val (md5One m)

/-! ## Host programs -/

/-- R108: `STEP n` is n lines `STEP`; `HASH "text"` is `START "text"` then `STEP 66`, and ends with `done = 1` and the
digest of the text; `WAIT` ends, not busy, within its 66 steps from every state that tracks its request. That lines are
data and text is bytes is the model's (log 13). -/
def Obligations.PseudoOperationsExpand : Prop :=
  (∀ (n : Nat) (s : State), runLine (.steps n) s = runProgram (List.replicate n (.steps 1)) s) ∧
  (∀ (s : State) (text : List Byte), runLine (.hash text) s = runProgram [.startText text, .steps 66] s) ∧
  (∀ (s : State) (text : List Byte), Waiting s → text.length ≤ 55 →
    ∃ t, runLine (.hash text) s = .ran t ∧ t.done = .val true ∧ t.digestOut = .val (md5One text)) ∧
  ∀ s : State, Tracks s → ∃ t, runLine .wait s = .ran t ∧ t.busy = .val false

/-- R237: a text of 64 bytes or more is rejected before the port, and a text of 56 to 63 bytes is rejected by the engine. -/
def Obligations.OversizeTextIsNeverHashed : Prop :=
  ∀ (s : State) (text : List Byte),
    (64 ≤ text.length → runLine (.startText text) s = .unsendable) ∧
    (56 ≤ text.length → text.length < 64 → Waiting s →
      ∃ t, runLine (.startText text) s = .ran t ∧ t.err = .val true ∧ t.causeOut = .val 0b01)
end

