-- ==== Sys2Proof/Laws/Memory.lean ====
section
/-! SUPPORT. The laws of the byte memories: read after write, and the canonical form that every write keeps. -/

namespace Sys2Proof.Machine

/-! ## Elements -/

@[simp] theorem Elem.map_bot {α β : Type} (f : α → β) : Elem.map f .bot = .bot := rfl
@[simp] theorem Elem.map_val {α β : Type} (f : α → β) (v : α) : Elem.map f (.val v) = .val (f v) := rfl
@[simp] theorem Elem.getD_val {α : Type} (v w : α) : Elem.getD (.val v) w = v := rfl
@[simp] theorem Elem.getD_bot {α : Type} (w : α) : Elem.getD .bot w = w := rfl
@[simp] theorem Elem.map2_val {α β γ : Type} (f : α → β → γ) (v : α) (w : β) :
    Elem.map2 f (.val v) (.val w) = .val (f v w) := rfl
@[simp] theorem Elem.map2_bot_left {α β γ : Type} (f : α → β → γ) (x : Elem β) : Elem.map2 f .bot x = .bot := rfl
@[simp] theorem Elem.map2_bot_right {α β γ : Type} (f : α → β → γ) (x : Elem α) : Elem.map2 f x .bot = .bot := by
  cases x <;> rfl

theorem Elem.map_eq_val {α β : Type} {f : α → β} {x : Elem α} {w : β} (h : Elem.map f x = .val w) :
    ∃ v, x = .val v ∧ f v = w := by
  cases x with
  | bot => cases h
  | val v => exact ⟨v, rfl, by simpa using h⟩

theorem Elem.map2_eq_val {α β γ : Type} {f : α → β → γ} {x : Elem α} {y : Elem β} {z : γ}
    (h : Elem.map2 f x y = .val z) : ∃ v w, x = .val v ∧ y = .val w ∧ f v w = z := by
  cases x with
  | bot => cases h
  | val v =>
    cases y with
    | bot => cases h
    | val w => exact ⟨v, w, rfl, rfl, by simpa using h⟩

/-! ## Read after write -/

@[simp] theorem readByte_nil (x : Nat) : readByte [] x = .bot := rfl

theorem readByte_cons (k : Nat) (w : Byte) (m : Memory) (x : Nat) :
    readByte ((k, w) :: m) x = if x = k then .val w else readByte m x := rfl

theorem readByte_writeByte (m : Memory) (x y : Nat) (v : Byte) :
    readByte (writeByte m x v) y = if y = x then .val v else readByte m y := by
  induction m with
  | nil => rfl
  | cons cell m ih =>
    obtain ⟨k, w⟩ := cell
    rw [writeByte]
    split_ifs with h1 h2 h3 h4 h5 <;> simp_all [readByte_cons]

@[simp] theorem readByte_writeByte_same (m : Memory) (x : Nat) (v : Byte) :
    readByte (writeByte m x v) x = .val v := by simp [readByte_writeByte]

theorem readByte_writeByte_other (m : Memory) {x y : Nat} (v : Byte) (h : y ≠ x) :
    readByte (writeByte m x v) y = readByte m y := by simp [readByte_writeByte, h]

theorem readByte_writeBytes_outside (m : Memory) (x y : Nat) (vs : List Byte) (h : y < x ∨ x + vs.length ≤ y) :
    readByte (writeBytes m x vs) y = readByte m y := by
  induction vs generalizing m x with
  | nil => rfl
  | cons v vs ih =>
    simp only [List.length_cons] at h
    rw [writeBytes, ih _ _ (by omega), readByte_writeByte_other _ _ (by omega)]

theorem readByte_writeBytes_inside (m : Memory) (x k : Nat) (vs : List Byte) (h : k < vs.length) :
    readByte (writeBytes m x vs) (x + k) = .val (vs[k]) := by
  induction vs generalizing m x k with
  | nil => simp at h
  | cons v vs ih =>
    rw [writeBytes]
    cases k with
    | zero => rw [Nat.add_zero, readByte_writeBytes_outside _ _ _ _ (by omega)]; simp
    | succ k =>
      have := ih (writeByte m x v) (x + 1) k (by simpa using h)
      rw [show x + (k + 1) = x + 1 + k by omega]
      simpa using this

@[simp] theorem readBytes_zero (m : Memory) (x : Nat) : readBytes m x 0 = .val [] := rfl

theorem readBytes_length {m : Memory} {x n : Nat} {vs : List Byte} (h : readBytes m x n = .val vs) :
    vs.length = n := by
  induction n generalizing x vs with
  | zero => simp at h; simp [← h]
  | succ n ih =>
    obtain ⟨v, ws, -, hw, rfl⟩ := Elem.map2_eq_val h
    simp [ih hw]

/-- Reading `n` bytes whose values are known. -/
theorem readBytes_of_readByte {m : Memory} {x n : Nat} {f : Nat → Byte}
    (h : ∀ k < n, readByte m (x + k) = .val (f k)) : readBytes m x n = .val ((List.range n).map f) := by
  induction n generalizing x f with
  | zero => rfl
  | succ n ih =>
    have ht : readBytes m (x + 1) n = .val ((List.range n).map fun k => f (k + 1)) :=
      ih fun k hk => by
        rw [show x + 1 + k = x + (k + 1) by omega]
        exact h (k + 1) (by omega)
    have hh := h 0 (by omega)
    rw [Nat.add_zero] at hh
    simp [readBytes, hh, ht, List.range_succ_eq_map]

/-- Each byte of a list that was read, read alone. -/
theorem readByte_of_readBytes {m : Memory} {x n : Nat} {vs : List Byte} (h : readBytes m x n = .val vs) :
    ∀ k, k < n → readByte m (x + k) = .val (vs.getD k 0) := by
  induction n generalizing x vs with
  | zero => intro k hk; omega
  | succ n ih =>
    obtain ⟨v, ws, hv, hw, rfl⟩ := Elem.map2_eq_val h
    intro k hk
    cases k with
    | zero => simpa using hv
    | succ k => rw [show x + (k + 1) = x + 1 + k by omega, ih hw k (by omega)]; simp

/-! ## The canonical form -/

theorem Memory.rising_tail {c : Host.Cell} {m : Memory} (h : Memory.rising (c :: m) = true) :
    Memory.rising m = true := by
  cases m with
  | nil => rfl
  | cons e m => simp [Memory.rising] at h; exact h.2

/-- In a rising memory every later address is above the first. -/
theorem Memory.rising_head_lt {k : Nat} {w : Byte} {m : Memory} (h : Memory.rising ((k, w) :: m) = true)
    {cell : Host.Cell} (hc : cell ∈ m) : k < cell.1 := by
  induction m generalizing k w with
  | nil => simp at hc
  | cons e m ih =>
    obtain ⟨l, v⟩ := e
    simp only [Memory.rising, Bool.and_eq_true, decide_eq_true_eq] at h
    rcases List.mem_cons.1 hc with rfl | hc
    · exact h.1
    · exact lt_trans h.1 (ih h.2 hc)

theorem Memory.rising_cons {k : Nat} {w : Byte} {m : Memory} (hm : Memory.rising m = true)
    (hk : ∀ cell ∈ m, k < cell.1) : Memory.rising ((k, w) :: m) = true := by
  cases m with
  | nil => rfl
  | cons e m =>
    obtain ⟨l, v⟩ := e
    simp only [Memory.rising, Bool.and_eq_true, decide_eq_true_eq]
    exact ⟨hk (l, v) (by simp), hm⟩

theorem mem_writeByte {m : Memory} {x : Nat} {v : Byte} {cell : Host.Cell} (h : cell ∈ writeByte m x v) :
    cell = (x, v) ∨ cell ∈ m := by
  induction m with
  | nil => simpa [writeByte] using h
  | cons e m ih =>
    obtain ⟨k, w⟩ := e
    rw [writeByte] at h
    split_ifs at h <;> simp only [List.mem_cons] at h ⊢ <;> tauto

theorem rising_writeByte {m : Memory} (h : Memory.rising m = true) (x : Nat) (v : Byte) :
    Memory.rising (writeByte m x v) = true := by
  induction m with
  | nil => rfl
  | cons e m ih =>
    obtain ⟨k, w⟩ := e
    have hlt := fun c hc => Memory.rising_head_lt (cell := c) h hc
    rw [writeByte]
    split_ifs with h1 h2
    · simp only [Memory.rising, Bool.and_eq_true, decide_eq_true_eq]; exact ⟨h1, h⟩
    · subst h2; exact Memory.rising_cons (Memory.rising_tail h) hlt
    · refine Memory.rising_cons (ih (Memory.rising_tail h)) fun c hc => ?_
      rcases mem_writeByte hc with rfl | hc
      · show k < x; omega
      · exact hlt c hc

/-- A write inside the space keeps the canonical form. -/
theorem wf_writeByte {size : Nat} {m : Memory} (h : Memory.wf size m = true) {x : Nat} (hx : x < size) (v : Byte) :
    Memory.wf size (writeByte m x v) = true := by
  simp only [Memory.wf, Memory.within, Bool.and_eq_true, List.all_eq_true, decide_eq_true_eq] at h ⊢
  refine ⟨rising_writeByte h.1 x v, fun c hc => ?_⟩
  rcases mem_writeByte hc with rfl | hc
  · exact hx
  · exact h.2 c hc

theorem wf_writeBytes {size : Nat} {m : Memory} (h : Memory.wf size m = true) {x : Nat} {vs : List Byte}
    (hx : x + vs.length ≤ size) : Memory.wf size (writeBytes m x vs) = true := by
  induction vs generalizing m x with
  | nil => exact h
  | cons v vs ih =>
    simp only [List.length_cons] at hx
    exact ih (wf_writeByte h (by omega) v) (by omega)

theorem wf_memWrite {size : Nat} {m : Memory} (h : Memory.wf size m = true) {x n : Nat} (v : Nat)
    (hx : x + n ≤ size) : Memory.wf size (memWrite m x n v) = true :=
  wf_writeBytes h (by simpa using hx)

@[simp] theorem wf_nil (size : Nat) : Memory.wf size [] = true := rfl

/-- A memory made by listing the addresses 0..n-1 in order is canonical. -/
theorem wf_rangeMap {n size : Nat} (f : Nat → Byte) (h : n ≤ size) :
    Memory.wf size ((List.range n).map fun k => (k, f k)) = true := by
  have rising : ∀ (n s : Nat), Memory.rising ((List.range' s n).map fun k => (k, f k)) = true := by
    intro n
    induction n with
    | zero => intro s; rfl
    | succ n ih =>
      intro s
      rw [List.range'_succ, List.map_cons]
      refine Memory.rising_cons (ih (s + 1)) fun c hc => ?_
      simp only [List.mem_map, List.mem_range'_1] at hc
      obtain ⟨k, hk, rfl⟩ := hc
      show s < k; omega
  simp only [Memory.wf, Memory.within, Bool.and_eq_true, List.all_eq_true, decide_eq_true_eq]
  refine ⟨by rw [List.range_eq_range']; exact rising n 0, fun c hc => ?_⟩
  simp only [List.mem_map, List.mem_range] at hc
  obtain ⟨k, hk, rfl⟩ := hc
  show k < size; omega

theorem wf_latchBytes (v : MsgLanes) : Memory.wf Config.maxLen (latchBytes v) = true :=
  wf_rangeMap (lane v) (le_refl _)

theorem wf_pad {bytes : List Byte} (h : bytes.length ≤ Config.maxLen) :
    Memory.wf Config.blockBytes (pad bytes) = true := by
  simp only [Config.maxLen] at h
  refine wf_memWrite (wf_writeBytes (wf_writeByte (wf_writeBytes (wf_nil _) ?_) ?_ _) ?_) _ ?_ <;>
    simp [Config.blockBytes, Config.maxLen, Config.lengthFieldOffset, Config.lengthFieldBytes] <;> omega

/-- An address outside the space of a canonical memory reads as `⊥`: nothing is stored there (R61). -/
theorem readByte_outside {size : Nat} {m : Memory} (h : Memory.wf size m = true) {x : Nat} (hx : size ≤ x) :
    readByte m x = .bot := by
  simp only [Memory.wf, Bool.and_eq_true] at h
  have hw := h.2
  clear h
  induction m with
  | nil => rfl
  | cons e m ih =>
    obtain ⟨k, w⟩ := e
    simp only [Memory.within, List.all_cons, Bool.and_eq_true, decide_eq_true_eq] at hw
    rw [readByte_cons, if_neg (by omega), ih hw.2]

/-- The latch holds the lane of each of its 55 bytes (R121). -/
theorem readByte_latchBytes (v : MsgLanes) (k : Nat) :
    readByte (latchBytes v) k = if k < Config.maxLen then .val (lane v k) else .bot := by
  have key : ∀ (n s : Nat), readByte ((List.range' s n).map fun k => (k, lane v k)) k =
      if s ≤ k ∧ k < s + n then .val (lane v k) else .bot := by
    intro n
    induction n with
    | zero => intro s; rw [if_neg (by omega)]; rfl
    | succ n ih =>
      intro s
      rw [List.range'_succ, List.map_cons, readByte_cons, ih]
      split_ifs with h1 h2 h3 h4 <;> first | omega | (subst h1; rfl) | rfl
  rw [latchBytes, List.range_eq_range', key]
  simp

/-! ## The padded block -/

/-- Every byte of the padded block (R141): the four clauses, and nothing outside the 64 bytes. -/
theorem readByte_pad {m : List Byte} (hm : m.length ≤ 55) (k : Nat) :
    readByte (pad m) k =
      if k < m.length then .val (m.getD k 0) else if k = m.length then .val 0x80 else if k < 56 then .val 0
      else if k < 64 then .val (byteOfNat (8 * m.length) (k - 56)) else .bot := by
  have hb : (bitLength m.length).toNat = 8 * m.length := by
    simp [bitLength, BitVec.toNat_mul, BitVec.toNat_ofNat]; omega
  unfold pad memWrite
  simp only [Config.maxLen, Config.lengthFieldOffset, Config.lengthFieldBytes, hb]
  split_ifs with h1 h2 h3 h4
  · have := readByte_writeBytes_inside [] 0 k m h1
    rw [readByte_writeBytes_outside _ _ _ _ (by omega), readByte_writeBytes_outside _ _ _ _ (by omega),
      readByte_writeByte_other _ _ (by omega)]
    rw [Nat.zero_add] at this
    rw [this]; simp [h1]
  · rw [readByte_writeBytes_outside _ _ _ _ (by omega), readByte_writeBytes_outside _ _ _ _ (by omega), h2]; simp
  · have := readByte_writeBytes_inside (writeByte (writeBytes [] 0 m) m.length 0x80) (m.length + 1)
      (k - (m.length + 1)) (List.replicate (55 - m.length) 0) (by simp; omega)
    rw [readByte_writeBytes_outside _ _ _ _ (by omega)]
    rw [show m.length + 1 + (k - (m.length + 1)) = k by omega] at this
    rw [this]; simp
  · have := readByte_writeBytes_inside
      (writeBytes (writeByte (writeBytes [] 0 m) m.length 0x80) (m.length + 1) (List.replicate (55 - m.length) 0)) 56
      (k - 56) ((List.range 8).map (byteOfNat (8 * m.length))) (by simp; omega)
    rw [show 56 + (k - 56) = k by omega] at this
    rw [this]; simp
  · rw [readByte_writeBytes_outside _ _ _ _ (by simp; omega), readByte_writeBytes_outside _ _ _ _ (by simp; omega),
      readByte_writeByte_other _ _ (by omega), readByte_writeBytes_outside _ _ _ _ (by omega)]
    rfl

end Sys2Proof.Machine
end

