-- ==== Sys2Proof/Laws/State.lean ====
section
/-! SUPPORT. What each named update of the state leaves in each field: one lemma per field per update, true by rfl. -/

namespace Sys2Proof.Machine

/-! ## `A, B, C, D <- q` -/

@[simp] theorem State.setWork_ph (s : State) (q : Quad) : (s.setWork q).ph = s.ph := rfl
@[simp] theorem State.setWork_ri (s : State) (q : Quad) : (s.setWork q).ri = s.ri := rfl
@[simp] theorem State.setWork_cause (s : State) (q : Quad) : (s.setWork q).cause = s.cause := rfl
@[simp] theorem State.setWork_msg (s : State) (q : Quad) : (s.setWork q).msg = s.msg := rfl
@[simp] theorem State.setWork_len (s : State) (q : Quad) : (s.setWork q).len = s.len := rfl
@[simp] theorem State.setWork_blk (s : State) (q : Quad) : (s.setWork q).blk = s.blk := rfl
@[simp] theorem State.setWork_a (s : State) (q : Quad) : (s.setWork q).a = .val q.a := rfl
@[simp] theorem State.setWork_b (s : State) (q : Quad) : (s.setWork q).b = .val q.b := rfl
@[simp] theorem State.setWork_c (s : State) (q : Quad) : (s.setWork q).c = .val q.c := rfl
@[simp] theorem State.setWork_d (s : State) (q : Quad) : (s.setWork q).d = .val q.d := rfl
@[simp] theorem State.setWork_a0 (s : State) (q : Quad) : (s.setWork q).a0 = s.a0 := rfl
@[simp] theorem State.setWork_b0 (s : State) (q : Quad) : (s.setWork q).b0 = s.b0 := rfl
@[simp] theorem State.setWork_c0 (s : State) (q : Quad) : (s.setWork q).c0 = s.c0 := rfl
@[simp] theorem State.setWork_d0 (s : State) (q : Quad) : (s.setWork q).d0 = s.d0 := rfl
@[simp] theorem State.setWork_inputs (s : State) (q : Quad) : (s.setWork q).inputs = s.inputs := rfl

/-! ## `A0, B0, C0, D0 <- q` -/

@[simp] theorem State.setAcc_ph (s : State) (q : Quad) : (s.setAcc q).ph = s.ph := rfl
@[simp] theorem State.setAcc_ri (s : State) (q : Quad) : (s.setAcc q).ri = s.ri := rfl
@[simp] theorem State.setAcc_cause (s : State) (q : Quad) : (s.setAcc q).cause = s.cause := rfl
@[simp] theorem State.setAcc_msg (s : State) (q : Quad) : (s.setAcc q).msg = s.msg := rfl
@[simp] theorem State.setAcc_len (s : State) (q : Quad) : (s.setAcc q).len = s.len := rfl
@[simp] theorem State.setAcc_blk (s : State) (q : Quad) : (s.setAcc q).blk = s.blk := rfl
@[simp] theorem State.setAcc_a (s : State) (q : Quad) : (s.setAcc q).a = s.a := rfl
@[simp] theorem State.setAcc_b (s : State) (q : Quad) : (s.setAcc q).b = s.b := rfl
@[simp] theorem State.setAcc_c (s : State) (q : Quad) : (s.setAcc q).c = s.c := rfl
@[simp] theorem State.setAcc_d (s : State) (q : Quad) : (s.setAcc q).d = s.d := rfl
@[simp] theorem State.setAcc_a0 (s : State) (q : Quad) : (s.setAcc q).a0 = .val q.a := rfl
@[simp] theorem State.setAcc_b0 (s : State) (q : Quad) : (s.setAcc q).b0 = .val q.b := rfl
@[simp] theorem State.setAcc_c0 (s : State) (q : Quad) : (s.setAcc q).c0 = .val q.c := rfl
@[simp] theorem State.setAcc_d0 (s : State) (q : Quad) : (s.setAcc q).d0 = .val q.d := rfl
@[simp] theorem State.setAcc_inputs (s : State) (q : Quad) : (s.setAcc q).inputs = s.inputs := rfl

/-! ## The sample of the step is used up -/

@[simp] theorem State.dropSample_ph (s : State) : (s.dropSample).ph = s.ph := rfl
@[simp] theorem State.dropSample_ri (s : State) : (s.dropSample).ri = s.ri := rfl
@[simp] theorem State.dropSample_cause (s : State) : (s.dropSample).cause = s.cause := rfl
@[simp] theorem State.dropSample_msg (s : State) : (s.dropSample).msg = s.msg := rfl
@[simp] theorem State.dropSample_len (s : State) : (s.dropSample).len = s.len := rfl
@[simp] theorem State.dropSample_blk (s : State) : (s.dropSample).blk = s.blk := rfl
@[simp] theorem State.dropSample_a (s : State) : (s.dropSample).a = s.a := rfl
@[simp] theorem State.dropSample_b (s : State) : (s.dropSample).b = s.b := rfl
@[simp] theorem State.dropSample_c (s : State) : (s.dropSample).c = s.c := rfl
@[simp] theorem State.dropSample_d (s : State) : (s.dropSample).d = s.d := rfl
@[simp] theorem State.dropSample_a0 (s : State) : (s.dropSample).a0 = s.a0 := rfl
@[simp] theorem State.dropSample_b0 (s : State) : (s.dropSample).b0 = s.b0 := rfl
@[simp] theorem State.dropSample_c0 (s : State) : (s.dropSample).c0 = s.c0 := rfl
@[simp] theorem State.dropSample_d0 (s : State) : (s.dropSample).d0 = s.d0 := rfl
@[simp] theorem State.dropSample_inputs (s : State) : (s.dropSample).inputs = s.inputs.tail := rfl

/-! ## The request is latched (R121) -/

@[simp] theorem latchRequest_ph (p : Ports) (s : State) : (latchRequest p s).ph = s.ph := rfl
@[simp] theorem latchRequest_ri (p : Ports) (s : State) : (latchRequest p s).ri = s.ri := rfl
@[simp] theorem latchRequest_cause (p : Ports) (s : State) : (latchRequest p s).cause = s.cause := rfl
@[simp] theorem latchRequest_msg (p : Ports) (s : State) : (latchRequest p s).msg = latchBytes p.msgIn := rfl
@[simp] theorem latchRequest_len (p : Ports) (s : State) : (latchRequest p s).len = .val p.lenIn := rfl
@[simp] theorem latchRequest_blk (p : Ports) (s : State) : (latchRequest p s).blk = s.blk := rfl
@[simp] theorem latchRequest_a (p : Ports) (s : State) : (latchRequest p s).a = s.a := rfl
@[simp] theorem latchRequest_b (p : Ports) (s : State) : (latchRequest p s).b = s.b := rfl
@[simp] theorem latchRequest_c (p : Ports) (s : State) : (latchRequest p s).c = s.c := rfl
@[simp] theorem latchRequest_d (p : Ports) (s : State) : (latchRequest p s).d = s.d := rfl
@[simp] theorem latchRequest_a0 (p : Ports) (s : State) : (latchRequest p s).a0 = s.a0 := rfl
@[simp] theorem latchRequest_b0 (p : Ports) (s : State) : (latchRequest p s).b0 = s.b0 := rfl
@[simp] theorem latchRequest_c0 (p : Ports) (s : State) : (latchRequest p s).c0 = s.c0 := rfl
@[simp] theorem latchRequest_d0 (p : Ports) (s : State) : (latchRequest p s).d0 = s.d0 := rfl
@[simp] theorem latchRequest_inputs (p : Ports) (s : State) : (latchRequest p s).inputs = s.inputs := rfl

/-! ## InputTooLong is raised (R203) -/

@[simp] theorem raiseInputTooLong_ph (p : Ports) (s : State) : (raiseInputTooLong p s).ph = .val .err := rfl
@[simp] theorem raiseInputTooLong_ri (p : Ports) (s : State) : (raiseInputTooLong p s).ri = s.ri := rfl
@[simp] theorem raiseInputTooLong_cause (p : Ports) (s : State) : (raiseInputTooLong p s).cause = .val .inputTooLong := rfl
@[simp] theorem raiseInputTooLong_msg (p : Ports) (s : State) : (raiseInputTooLong p s).msg = latchBytes p.msgIn := rfl
@[simp] theorem raiseInputTooLong_len (p : Ports) (s : State) : (raiseInputTooLong p s).len = .val p.lenIn := rfl
@[simp] theorem raiseInputTooLong_blk (p : Ports) (s : State) : (raiseInputTooLong p s).blk = s.blk := rfl
@[simp] theorem raiseInputTooLong_a (p : Ports) (s : State) : (raiseInputTooLong p s).a = s.a := rfl
@[simp] theorem raiseInputTooLong_b (p : Ports) (s : State) : (raiseInputTooLong p s).b = s.b := rfl
@[simp] theorem raiseInputTooLong_c (p : Ports) (s : State) : (raiseInputTooLong p s).c = s.c := rfl
@[simp] theorem raiseInputTooLong_d (p : Ports) (s : State) : (raiseInputTooLong p s).d = s.d := rfl
@[simp] theorem raiseInputTooLong_a0 (p : Ports) (s : State) : (raiseInputTooLong p s).a0 = s.a0 := rfl
@[simp] theorem raiseInputTooLong_b0 (p : Ports) (s : State) : (raiseInputTooLong p s).b0 = s.b0 := rfl
@[simp] theorem raiseInputTooLong_c0 (p : Ports) (s : State) : (raiseInputTooLong p s).c0 = s.c0 := rfl
@[simp] theorem raiseInputTooLong_d0 (p : Ports) (s : State) : (raiseInputTooLong p s).d0 = s.d0 := rfl
@[simp] theorem raiseInputTooLong_inputs (p : Ports) (s : State) : (raiseInputTooLong p s).inputs = s.inputs := rfl

/-! ## The initial values and the component-wise sum -/

@[simp] theorem ivQuad_a : ivQuad.a = ivA := rfl
@[simp] theorem ivQuad_b : ivQuad.b = ivB := rfl
@[simp] theorem ivQuad_c : ivQuad.c = ivC := rfl
@[simp] theorem ivQuad_d : ivQuad.d = ivD := rfl
@[simp] theorem Quad.add_a (x y : Quad) : (x.add y).a = x.a + y.a := rfl
@[simp] theorem Quad.add_b (x y : Quad) : (x.add y).b = x.b + y.b := rfl
@[simp] theorem Quad.add_c (x y : Quad) : (x.add y).c = x.c + y.c := rfl
@[simp] theorem Quad.add_d (x y : Quad) : (x.add y).d = x.d + y.d := rfl

end Sys2Proof.Machine
end

