-- ==== Sys2Proof/Laws/Ops.lean ====
section
/-! SUPPORT. What each shared operation can do: reading elements, forming the selector, decoding it by phase, one round,
one step. -/

namespace Sys2Proof.Machine

open Sys2Proof.Safety

/-! ## Reading elements -/

@[simp] theorem need_val {α : Type} (e : Element) (v : α) (k : α → Result) : need e (.val v) k = k v := rfl
@[simp] theorem need_bot {α : Type} (e : Element) (k : α → Result) :
    need e .bot k = .fault (.readBottom e) := rfl

/-- If a read goes on to a next state, the element held a value. -/
theorem need_next {α : Type} {e : Element} {x : Elem α} {k : α → Result} {t : State}
    (h : need e x k = .next t) : ∃ v, x = .val v ∧ k v = .next t := by
  cases x with
  | bot => cases h
  | val v => exact ⟨v, rfl, h⟩

theorem needWork_of {s : State} {q : Quad} (h : WorkIs s q) (k : Quad → Result) : needWork s k = k q := by
  obtain ⟨ha, hb, hc, hd⟩ := h
  simp [needWork, ha, hb, hc, hd]

theorem needAcc_of {s : State} {q : Quad} (h : AccIs s q) (k : Quad → Result) : needAcc s k = k q := by
  obtain ⟨ha, hb, hc, hd⟩ := h
  simp [needAcc, ha, hb, hc, hd]

theorem needWork_next {s t : State} {k : Quad → Result} (h : needWork s k = .next t) :
    ∃ q, WorkIs s q ∧ k q = .next t := by
  obtain ⟨a, ha, h⟩ := need_next h
  obtain ⟨b, hb, h⟩ := need_next h
  obtain ⟨c, hc, h⟩ := need_next h
  obtain ⟨d, hd, h⟩ := need_next h
  exact ⟨⟨a, b, c, d⟩, ⟨ha, hb, hc, hd⟩, h⟩

theorem needAcc_next {s t : State} {k : Quad → Result} (h : needAcc s k = .next t) :
    ∃ q, AccIs s q ∧ k q = .next t := by
  obtain ⟨a, ha, h⟩ := need_next h
  obtain ⟨b, hb, h⟩ := need_next h
  obtain ⟨c, hc, h⟩ := need_next h
  obtain ⟨d, hd, h⟩ := need_next h
  exact ⟨⟨a, b, c, d⟩, ⟨ha, hb, hc, hd⟩, h⟩

/-! ## The selector -/

@[simp] theorem phaseOfCode_phaseCode (p : Phase) : phaseOfCode (phaseCode p) = p := by
  cases p <;> rfl

@[simp] theorem phaseCode_phaseOfCode (c : BitVec 3) : phaseCode (phaseOfCode c) = c := by
  revert c; decide

/-- With `rst = 1` the operation is RESET whatever bits 9:0 are (R92, R105). -/
theorem decodeSel_reset (st : Bool) (p : Phase) (i : RoundIndex) : decodeSel (selOf true st p i) = .reset := by
  revert i; cases st <;> cases p <;> decide

theorem decodeSel_build (st : Bool) (i : RoundIndex) : decodeSel (selOf false st .build i) = .build := by
  revert i; cases st <;> decide

theorem decodeSel_final (st : Bool) (i : RoundIndex) : decodeSel (selOf false st .final i) = .final := by
  revert i; cases st <;> decide

/-- In PH = ROUND the operation is that of round RI, whatever `start` is (R96, R122). -/
theorem decodeSel_round (st : Bool) (i : RoundIndex) : decodeSel (selOf false st .round i) = roundInstr i := by
  revert i; cases st <;> decide

theorem decodeSel_reserved (st : Bool) (p : Phase) (h : p = .reserved6 ∨ p = .reserved7) (i : RoundIndex) :
    decodeSel (selOf false st p i) = .phReserved := by
  rcases h with rfl | rfl <;> revert i <;> cases st <;> decide

/-- In a waiting phase the operation is START or HOLD, by `start`, whatever RI is (R92). -/
theorem decodeSel_waiting (st : Bool) (p : Phase) (h : p = .idle ∨ p = .done ∨ p = .err) (i : RoundIndex) :
    decodeSel (selOf false st p i) = if st then .start else .hold := by
  rcases h with rfl | rfl | rfl <;> revert i <;> cases st <;> decide

/-- Without a reset and with PH and RI readable, the selector is formed from them (R91). -/
theorem fetch_val {s : State} {p : Phase} {i : RoundIndex} (hr : s.sample.rst = false) (hp : s.ph = .val p)
    (hi : s.ri = .val i) : fetch s = .ok (selOf false s.sample.start p i) := by
  simp [fetch, hr, hp, hi]

/-- Outside PH = ROUND a `⊥` RI is no obstacle (R91). -/
theorem fetch_outsideRound {s : State} {p : Phase} (hr : s.sample.rst = false) (hp : s.ph = .val p)
    (hn : p ≠ .round) : ∃ i, fetch s = .ok (selOf false s.sample.start p i) := by
  cases hi : s.ri with
  | val i => exact ⟨i, fetch_val hr hp hi⟩
  | bot => exact ⟨0, by simp [fetch, hr, hp, hi, hn]⟩

theorem fetch_reset {s : State} (hr : s.sample.rst = true) :
    fetch s = .ok (selOf true s.sample.start (s.ph.getD .idle) (s.ri.getD 0)) := by
  simp [fetch, hr]

/-! ## One step, by what selects it -/

/-- A step is the operation that its selector decodes to, and then the sample is used up. -/
theorem step_of_fetch {s t : State} {w : Sel} (hf : fetch s = .ok w) (he : exec (decodeSel w) s = .next t) :
    step s = .next t.dropSample := by
  simp only [step, hf, he]

/-- If a step answers a next state, some selector was formed and its operation answered. -/
theorem step_next {s t : State} (h : step s = .next t) :
    ∃ w u, fetch s = .ok w ∧ exec (decodeSel w) s = .next u ∧ t = u.dropSample := by
  unfold step at h
  split at h
  · cases h
  · rename_i w hw
    split at h
    · rename_i u hu; cases h; exact ⟨w, u, hw, hu, rfl⟩
    · cases h
    · cases h

/-! ## Rounds -/

@[simp] theorem advanceRound_lt {i : RoundIndex} (h : i < 63) (s : State) :
    advanceRound i s = { s with ri := .val (i + 1) } := if_pos h

@[simp] theorem advanceRound_last (s : State) : advanceRound 63 s = { s with ph := .val .final } := rfl

/-- Everything a round can do (R164, R169). -/
theorem roundOp_next {fn : Word → Word → Word → Word} {g : BitVec 4} {i : RoundIndex} {s t : State}
    (h : roundOp fn g i s = .next t) :
    ∃ q w, WorkIs s q ∧ wordView s.blk g = .val w ∧
      t = advanceRound i (s.setWork (roundUpdate fn i w q)) := by
  obtain ⟨q, hq, h⟩ := needWork_next h
  obtain ⟨w, hw, h⟩ := need_next h
  exact ⟨q, w, hq, hw, by simpa using h.symm⟩

theorem roundOp_of {fn : Word → Word → Word → Word} {g : BitVec 4} {i : RoundIndex} {s : State} {q : Quad} {w : Word}
    (hq : WorkIs s q) (hw : wordView s.blk g = .val w) :
    roundOp fn g i s = .next (advanceRound i (s.setWork (roundUpdate fn i w q))) := by
  rw [roundOp, needWork_of hq, hw, need_val]

/-- The operation of round `i` runs the quarter's function and word index (R96, R97). -/
theorem exec_roundInstr (i : RoundIndex) (s : State) :
    exec (roundInstr i) s = roundOp (roundFunction i) (wordIndex i) i s := by
  unfold roundInstr roundFunction wordIndex
  split <;> rfl

/-! ## Placing a selector -/

/-- The fields of a selector put together again give the selector (R91). -/
theorem selOf_fields (v : Sel) :
    selOf (v.getLsbD 10) (v.getLsbD 9) (phaseOfCode (v.extractLsb' 6 3)) (v.extractLsb' 0 6) = v := by
  simp only [selOf, phaseCode_phaseOfCode]
  apply BitVec.eq_of_getLsbD_eq
  intro k hk
  simp only [BitVec.getLsbD_append, BitVec.getLsbD_extractLsb', BitVec.getLsbD_ofBool]
  interval_cases k <;> simp

/-- The state made by `withFetchWord` forms exactly the selector it was given (R91). -/
theorem fetch_withFetchWord (s : State) (nbits w : Nat) :
    fetch (s.withFetchWord nbits w) = .ok (BitVec.ofNat 11 (w % 2 ^ nbits)) := by
  generalize hv : (BitVec.ofNat 11 (w % 2 ^ nbits) : Sel) = v
  have hs := selOf_fields v
  simp only [fetch, State.withFetchWord, State.sample, hv]
  generalize v.getLsbD 10 = r at hs
  cases r <;> simp_all

end Sys2Proof.Machine
end

