-- ==== Sys2Proof/Laws/PerInstr.lean ====
section
/-! SUPPORT. Per instruction: its encoding fits its own row of spec/30_encoding.md R92. -/

namespace Sys2Proof.Laws.EncodingFitsRow

/-- The mask of the operation's row (R92). -/
def rowMask : Instr → Sel
  | .reset => 0x400
  | .phReserved => 0x580
  | .build => 0x5C0
  | .roundF _ => 0x5F0
  | .roundG _ => 0x5F0
  | .roundH _ => 0x5F0
  | .roundI _ => 0x5F0
  | .final => 0x5C0
  | .start => 0x600
  | .hold => 0x600

/-- The match value of the operation's row (R92). -/
def rowMatch : Instr → Sel
  | .reset => 0x400
  | .phReserved => 0x180
  | .build => 0x040
  | .roundF _ => 0x080
  | .roundG _ => 0x090
  | .roundH _ => 0x0A0
  | .roundI _ => 0x0B0
  | .final => 0x0C0
  | .start => 0x200
  | .hold => 0x000

/-- `(encode i AND mask) = match` for the operation's own row, and the encoding sets no bit outside those the row reads. -/
def Statement (i : Instr) : Prop :=
  encode i &&& rowMask i = rowMatch i ∧ encode i &&& ~~~careMask i = 0

theorem reset : Statement .reset := by unfold Statement; decide
theorem phReserved : Statement .phReserved := by unfold Statement; decide
theorem build : Statement .build := by unfold Statement; decide
theorem roundF (i : RoundIndex) : Statement (.roundF i) := by unfold Statement; revert i; decide
theorem roundG (i : RoundIndex) : Statement (.roundG i) := by unfold Statement; revert i; decide
theorem roundH (i : RoundIndex) : Statement (.roundH i) := by unfold Statement; revert i; decide
theorem roundI (i : RoundIndex) : Statement (.roundI i) := by unfold Statement; revert i; decide
theorem final : Statement .final := by unfold Statement; decide
theorem start : Statement .start := by unfold Statement; decide
theorem hold : Statement .hold := by unfold Statement; decide

end Sys2Proof.Laws.EncodingFitsRow
end

