-- ==== Sys2Proof/Laws/Step.lean ====
section
/-! SUPPORT. Everything one operation and one step can do, said once: the inversion of each operation, of a step and of a
run, and the steps that complete. -/

namespace Sys2Proof.Machine

open Sys2Proof.Safety

/-! ## The operations -/

theorem inputTooLong_iff (n : Length) : inputTooLong n = true ↔ 55 < n.toNat := by simp [inputTooLong, Config.maxLen]

/-- START of a legal length (R121). -/
theorem exec_start_legal {s : State} (h : s.sample.lenIn.toNat ≤ 55) :
    exec .start s = .next { latchRequest s.sample s with cause := .val .none, ph := .val .build } :=
  if_neg (by rw [inputTooLong_iff]; omega)

/-- START of an illegal length (R203). -/
theorem exec_start_illegal {s : State} (h : 55 < s.sample.lenIn.toNat) :
    exec .start s = .next (raiseInputTooLong s.sample s) :=
  if_pos ((inputTooLong_iff _).2 h)

/-- The state BUILD leaves, for the message bytes `m` (R140). -/
abbrev builtState (s : State) (m : List Byte) : State :=
  ({ s with blk := pad m, ri := .val 0, ph := .val .round }.setWork ivQuad).setAcc ivQuad

theorem exec_build_of {s : State} {n : Length} {m : List Byte} (hl : s.len = .val n) (hn : n.toNat ≤ 55)
    (hm : readBytes s.msg 0 n.toNat = .val m) : exec .build s = .next (builtState s m) := by
  have h : ¬ inputTooLong n = true := by rw [inputTooLong_iff]; omega
  simp only [exec, execBuild, hl, need_val, if_neg h, hm]
  rw [builtState, hl]

/-- Everything BUILD can do (R140). -/
theorem exec_build_next {s t : State} (h : exec .build s = .next t) :
    ∃ n m, s.len = .val n ∧ n.toNat ≤ 55 ∧ readBytes s.msg 0 n.toNat = .val m ∧ t = builtState s m := by
  obtain ⟨n, hn, h⟩ := need_next h
  split at h
  · cases h
  · rename_i hlong
    obtain ⟨m, hm, h⟩ := need_next h
    cases h
    rw [inputTooLong_iff] at hlong
    exact ⟨n, m, hn, by omega, hm, rfl⟩

theorem exec_final_of {s : State} {q r : Quad} (hq : WorkIs s q) (hr : AccIs s r) :
    exec .final s = .next ({ s with ph := .val .done }.setAcc (r.add q)) := by
  simp only [exec, execFinal]
  rw [needWork_of hq, needAcc_of hr]

/-- Everything FINAL can do (R190). -/
theorem exec_final_next {s t : State} (h : exec .final s = .next t) :
    ∃ q r, WorkIs s q ∧ AccIs s r ∧ t = { s with ph := .val .done }.setAcc (r.add q) := by
  simp only [exec, execFinal] at h
  obtain ⟨q, hq, h⟩ := needWork_next h
  obtain ⟨r, hr, h⟩ := needAcc_next h
  cases h
  exact ⟨q, r, hq, hr, rfl⟩

theorem lt_63_iff {i : RoundIndex} : i < 63 ↔ i.toNat < 63 := Iff.rfl

theorem advanceRound_ph (i : RoundIndex) (s : State) :
    (advanceRound i s).ph = if i.toNat < 63 then s.ph else .val .final := by
  unfold advanceRound; simp only [lt_63_iff]; split <;> rfl

theorem advanceRound_ri (i : RoundIndex) (s : State) :
    (advanceRound i s).ri = if i.toNat < 63 then .val (i + 1) else s.ri := by
  unfold advanceRound; simp only [lt_63_iff]; split <;> rfl

/-- The sequencer's move writes PH and RI only (R169). -/
theorem advanceRound_rest (i : RoundIndex) (s : State) :
    { advanceRound i s with ph := s.ph, ri := s.ri } = s := by
  unfold advanceRound; split <;> rfl

/-- No operation touches the input samples: they are the host's (log 2). -/
theorem exec_inputs {i : Instr} {s t : State} (h : exec i s = .next t) : t.inputs = s.inputs := by
  have round : ∀ {fn g j}, roundOp fn g j s = .next t → t.inputs = s.inputs := by
    intro fn g j h
    obtain ⟨q, w, -, -, rfl⟩ := roundOp_next h
    unfold advanceRound; split <;> rfl
  cases i with
  | reset => cases h; rfl
  | phReserved => cases h
  | build => obtain ⟨n, m, -, -, -, rfl⟩ := exec_build_next h; rfl
  | roundF j => exact round h
  | roundG j => exact round h
  | roundH j => exact round h
  | roundI j => exact round h
  | final => obtain ⟨q, r, -, -, rfl⟩ := exec_final_next h; rfl
  | start =>
    simp only [exec, execStart] at h
    split at h <;> cases h <;> rfl
  | hold => cases h; rfl

/-! ## Which operation a step selects -/

theorem fetch_beforeReset {s : State} (hr : s.sample.rst = false) (hp : s.ph = .bot) :
    fetch s = .error .stepBeforeReset := by simp [fetch, hr, hp]

theorem selects_of_phase {s : State} {p : Phase} {i : Instr} (hr : s.sample.rst = false) (hp : s.ph = .val p)
    (hn : p ≠ .round) (hd : ∀ j, decodeSel (selOf false s.sample.start p j) = i) :
    ∃ w, fetch s = .ok w ∧ decodeSel w = i := by
  obtain ⟨j, hf⟩ := fetch_outsideRound hr hp hn
  exact ⟨_, hf, hd j⟩

theorem selects_waiting {s : State} (hr : s.sample.rst = false) (hw : Waiting s) :
    ∃ w, fetch s = .ok w ∧ decodeSel w = if s.sample.start then .start else .hold := by
  rcases hw with h | h | h
  · exact selects_of_phase hr h nofun (decodeSel_waiting _ _ (.inl rfl))
  · exact selects_of_phase hr h nofun (decodeSel_waiting _ _ (.inr (.inl rfl)))
  · exact selects_of_phase hr h nofun (decodeSel_waiting _ _ (.inr (.inr rfl)))

/-- A step whose selector decodes to `i` is `exec i`, then the sample is used up. -/
theorem step_of_selects {s t : State} {i : Instr} (hd : ∃ w, fetch s = .ok w ∧ decodeSel w = i)
    (he : exec i s = .next t) : step s = .next t.dropSample := by
  obtain ⟨w, hf, rfl⟩ := hd
  exact step_of_fetch hf he

theorem exec_of_step {s t : State} {i : Instr} (h : step s = .next t) (hd : ∃ w, fetch s = .ok w ∧ decodeSel w = i) :
    ∃ u, exec i s = .next u ∧ t = u.dropSample := by
  obtain ⟨w, u, hf, he, rfl⟩ := step_next h
  obtain ⟨w', hf', rfl⟩ := hd
  rw [hf] at hf'
  cases hf'
  exact ⟨u, he, rfl⟩

/-! ## The steps that complete, by phase -/

theorem step_reset {s : State} (h : s.sample.rst = true) :
    step s = .next { State.reset with inputs := s.inputs.tail } := by
  rw [step_of_fetch (fetch_reset h) (by rw [decodeSel_reset]; rfl)]; rfl

theorem step_hold {s : State} (hr : s.sample.rst = false) (hw : Waiting s) (hs : s.sample.start = false) :
    step s = .next s.dropSample :=
  step_of_selects (i := .hold) (by simpa [hs] using selects_waiting hr hw) rfl

theorem step_start_legal {s : State} (hr : s.sample.rst = false) (hw : Waiting s) (hs : s.sample.start = true)
    (hl : s.sample.lenIn.toNat ≤ 55) :
    step s = .next { latchRequest s.sample s with cause := .val .none, ph := .val .build }.dropSample :=
  step_of_selects (i := .start) (by simpa [hs] using selects_waiting hr hw) (exec_start_legal hl)

theorem step_start_illegal {s : State} (hr : s.sample.rst = false) (hw : Waiting s) (hs : s.sample.start = true)
    (hl : 55 < s.sample.lenIn.toNat) : step s = .next (raiseInputTooLong s.sample s).dropSample :=
  step_of_selects (i := .start) (by simpa [hs] using selects_waiting hr hw) (exec_start_illegal hl)

theorem step_build {s : State} {n : Length} {m : List Byte} (hr : s.sample.rst = false) (hp : s.ph = .val .build)
    (hl : s.len = .val n) (hn : n.toNat ≤ 55) (hm : readBytes s.msg 0 n.toNat = .val m) :
    step s = .next (builtState s m).dropSample :=
  step_of_selects (selects_of_phase hr hp nofun (decodeSel_build _)) (exec_build_of hl hn hm)

theorem step_round {s : State} {i : RoundIndex} {q : Quad} {w : Word} (hr : s.sample.rst = false)
    (hp : s.ph = .val .round) (hi : s.ri = .val i) (hq : WorkIs s q) (hw : wordView s.blk (wordIndex i) = .val w) :
    step s = .next (advanceRound i (s.setWork (roundUpdate (roundFunction i) i w q))).dropSample :=
  step_of_selects ⟨_, fetch_val hr hp hi, decodeSel_round _ _⟩ (by rw [exec_roundInstr]; exact roundOp_of hq hw)

theorem step_final {s : State} {q r : Quad} (hr : s.sample.rst = false) (hp : s.ph = .val .final) (hq : WorkIs s q)
    (ha : AccIs s r) : step s = .next ({ s with ph := .val .done }.setAcc (r.add q)).dropSample :=
  step_of_selects (selects_of_phase hr hp nofun (decodeSel_final _)) (exec_final_of hq ha)

/-- Everything a step can do when it answers a next state, with the guards of each case. -/
theorem step_cases {s t : State} (h : step s = .next t) :
    (s.sample.rst = true ∧ t = { State.reset with inputs := s.inputs.tail }) ∨
    (s.sample.rst = false ∧
      ((Waiting s ∧ s.sample.start = false ∧ t = s.dropSample) ∨
       (Waiting s ∧ s.sample.start = true ∧ s.sample.lenIn.toNat ≤ 55 ∧
        t = { latchRequest s.sample s with cause := .val .none, ph := .val .build }.dropSample) ∨
       (Waiting s ∧ s.sample.start = true ∧ 55 < s.sample.lenIn.toNat ∧ t = (raiseInputTooLong s.sample s).dropSample) ∨
       (s.ph = .val .build ∧ ∃ n m, s.len = .val n ∧ n.toNat ≤ 55 ∧ readBytes s.msg 0 n.toNat = .val m ∧
        t = (builtState s m).dropSample) ∨
       (s.ph = .val .round ∧ ∃ i q w, s.ri = .val i ∧ WorkIs s q ∧ wordView s.blk (wordIndex i) = .val w ∧
        t = (advanceRound i (s.setWork (roundUpdate (roundFunction i) i w q))).dropSample) ∨
       (s.ph = .val .final ∧ ∃ q r, WorkIs s q ∧ AccIs s r ∧
        t = ({ s with ph := .val .done }.setAcc (r.add q)).dropSample))) := by
  cases hr : s.sample.rst with
  | true => rw [step_reset hr] at h; cases h; exact .inl ⟨rfl, rfl⟩
  | false =>
    refine .inr ⟨rfl, ?_⟩
    by_cases hw : Waiting s
    · cases hs : s.sample.start with
      | false => rw [step_hold hr hw hs] at h; cases h; exact .inl ⟨hw, rfl, rfl⟩
      | true =>
        by_cases hl : s.sample.lenIn.toNat ≤ 55
        · rw [step_start_legal hr hw hs hl] at h; cases h; exact .inr (.inl ⟨hw, rfl, hl, rfl⟩)
        · rw [step_start_illegal hr hw hs (by omega)] at h; cases h
          exact .inr (.inr (.inl ⟨hw, rfl, by omega, rfl⟩))
    · refine .inr (.inr (.inr ?_))
      cases hp : s.ph with
      | bot => rw [step, fetch_beforeReset hr hp] at h; cases h
      | val p =>
        cases p with
        | idle => exact absurd (.inl hp) hw
        | done => exact absurd (.inr (.inl hp)) hw
        | err => exact absurd (.inr (.inr hp)) hw
        | build =>
          obtain ⟨u, hu, rfl⟩ := exec_of_step h (selects_of_phase hr hp nofun (decodeSel_build _))
          obtain ⟨n, m, h1, h2, h3, rfl⟩ := exec_build_next hu
          exact .inl ⟨rfl, n, m, h1, h2, h3, rfl⟩
        | round =>
          cases hi : s.ri with
          | bot => simp [step, fetch, hr, hp, hi] at h
          | val i =>
            obtain ⟨u, hu, rfl⟩ := exec_of_step h ⟨_, fetch_val hr hp hi, decodeSel_round _ _⟩
            rw [exec_roundInstr] at hu
            obtain ⟨q, w, hq, hv, rfl⟩ := roundOp_next hu
            exact .inr (.inl ⟨rfl, i, q, w, rfl, hq, hv, rfl⟩)
        | final =>
          obtain ⟨u, hu, rfl⟩ := exec_of_step h (selects_of_phase hr hp nofun (decodeSel_final _))
          obtain ⟨q, r, hq, ha, rfl⟩ := exec_final_next hu
          exact .inr (.inr ⟨rfl, q, r, hq, ha, rfl⟩)
        | reserved6 =>
          obtain ⟨u, hu, -⟩ := exec_of_step h (selects_of_phase hr hp nofun (decodeSel_reserved _ _ (.inl rfl)))
          cases hu
        | reserved7 =>
          obtain ⟨u, hu, -⟩ := exec_of_step h (selects_of_phase hr hp nofun (decodeSel_reserved _ _ (.inr rfl)))
          cases hu

/-! ## Runs -/

@[simp] theorem run_zero (s : State) : run 0 s = .next s := rfl

theorem run_succ_of {s t : State} (n : Nat) (h : step s = .next t) : run (n + 1) s = run n t := by
  simp only [run, h]

theorem run_one (s : State) : run 1 s = step s := by
  simp only [run]; cases step s <;> rfl

/-- A run of `m + n` steps is `m` steps and then `n`. -/
theorem run_add_of {s t : State} {m : Nat} (n : Nat) (h : run m s = .next t) : run (m + n) s = run n t := by
  induction m generalizing s with
  | zero => cases h; rw [Nat.zero_add]
  | succ m ih =>
    rw [Nat.succ_add]
    simp only [run] at h ⊢
    split at h
    · exact ih h
    · cases h
    · cases h

@[simp] theorem sampleAt_zero (s : State) : sampleAt s 0 = s.sample := by
  unfold sampleAt State.sample; cases s.inputs <;> rfl

/-- The samples of the state after one step are the later samples of the state before it. -/
theorem sampleAt_tail {s t : State} (h : t.inputs = s.inputs.tail) (k : Nat) : sampleAt t k = sampleAt s (k + 1) := by
  unfold sampleAt; rw [h]; cases s.inputs <;> rfl

end Sys2Proof.Machine
end

