-- ==== Sys2Proof/Tests/Slice0.lean ====
section
/-! SUPPORT. The model's own tests. Every expected value is written out from spec/: the section of 95_test_vectors.md, or
the rule, that it comes from stands in the docstring. Then the witnesses: for each statement of Obligations.lean with
hypotheses, a concrete state and operands that meet them. -/

namespace Sys2Proof.Tests

open Sys2Proof Sys2Proof.Machine Sys2Proof.Safety

/-! ## Helpers -/

/-- The outcome is a next state of which `p` holds. -/
def nextIs (r : Result) (p : State → Bool) : Bool :=
  match r with
  | .next t => p t
  | .fault _ => false
  | .refused _ => false

/-- The outcome is this fault. -/
def faultIs (r : Result) (f : Fault) : Bool :=
  match r with
  | .next _ => false
  | .fault g => f == g
  | .refused _ => false

/-- The host program ran, to a state of which `p` holds. -/
def ranTo (r : HostOutcome) (p : State → Bool) : Bool :=
  match r with
  | .ran s => p s
  | .fault _ => false
  | .refused _ => false
  | .unmet _ => false
  | .unsendable => false
  | .stillBusy => false

/-- Bytes at rising addresses from 0. -/
def listing (bytes : List Byte) : Memory := (List.range bytes.length).zip bytes

/-- "abc" (R100). -/
def abc : List Byte := [0x61, 0x62, 0x63]

/-- The block of "abc", byte by byte (95_test_vectors.md section 2.3). -/
def abcBlock : Memory :=
  listing ([0x61, 0x62, 0x63, 0x80] ++ List.replicate 52 0x00 ++ [0x18, 0x00, 0x00, 0x00, 0x00, 0x00, 0x00, 0x00])

/-- The request for "abc" on the ports (95_test_vectors.md, "Notation"). -/
def askAbc : Ports := { rst := false, start := true, lenIn := 3, msgIn := 0x636261 }

/-- A request of `n` bytes. -/
def ask (n : Length) : Ports := { rst := false, start := true, lenIn := n, msgIn := 0x636261 }

/-- A reset on the ports, with a request beside it. -/
def askReset : Ports := { askAbc with rst := true }

/-- IDLE after RESET, with `p` on the ports. -/
def idleWith (p : Ports) : State := { State.reset with inputs := [p] }

/-- In BUILD, with "abc" latched. -/
def abcBuild : State := { State.reset with ph := .val .build, msg := listing abc, len := .val 3 }

/-- In BUILD, with 55 bytes of "a" latched. -/
def longBuild : State :=
  { State.reset with ph := .val .build, msg := listing (List.replicate 55 0x61), len := .val 55 }

/-- In ROUND at round `i` of "abc", with `q` in the working registers. -/
def abcRound (i : RoundIndex) (q : Quad) : State :=
  ({ abcBuild with ph := .val .round, ri := .val i, blk := abcBlock }.setAcc ivQuad).setWork q

/-- In FINAL, with `q` in the working registers. -/
def abcFinal (q : Quad) : State := { abcRound 63 q with ph := .val .final }

/-- In DONE, with `q` in the accumulators. -/
def doneWith (q : Quad) : State := { abcFinal ⟨0, 0, 0, 0⟩ with ph := .val .done }.setAcc q

/-- In ERR after a request of 56 bytes. -/
def inErr : State :=
  { State.reset with ph := .val .err, cause := .val .inputTooLong, msg := listing (List.replicate 55 0x61), len := .val 56 }

/-- In a reserved phase (R94). -/
def inReserved (p : Phase) : State := { State.reset with ph := .val p }

/-- The round outcome: the four registers, RI and PH after it. -/
def roundIs (r : Result) (q : Quad) (ri : RoundIndex) (ph : Phase) : Bool :=
  nextIs r fun t =>
    t.a == .val q.a && t.b == .val q.b && t.c == .val q.c && t.d == .val q.d && t.ri == .val ri && t.ph == .val ph

/-! ## WellFormed refuses a round number outside its row's quarter (R165 to R168), one ill-formed term for each check -/

theorem test_wf_roundF_refuses : (Instr.roundF 16).wf = false := by decide
theorem test_wf_roundG_refuses : (Instr.roundG 15).wf = false := by decide
theorem test_wf_roundH_refuses : (Instr.roundH 48).wf = false := by decide
theorem test_wf_roundI_refuses : (Instr.roundI 47).wf = false := by decide
theorem test_wf_round_accepts :
    (Instr.roundF 15).wf = true ∧ (Instr.roundG 16).wf = true ∧ (Instr.roundH 47).wf = true ∧ (Instr.roundI 48).wf = true := by
  decide

/-! ## Decoding, by bit patterns written from R92 and 95_test_vectors.md section 2.7 -/

/-- rst = 1, every other bit set. -/
theorem test_decode_reset : decodeSel 0b11111111111#11 = .reset := by decide
/-- PH = 110 with start = 0, PH = 111 with start = 1. -/
theorem test_decode_phReserved :
    decodeSel 0b00110010101#11 = .phReserved ∧ decodeSel 0b01111111111#11 = .phReserved := by decide
/-- Program P6, step 3: start is ignored in BUILD. -/
theorem test_decode_build : decodeSel 0b01001000000#11 = .build := by decide
/-- The round-boundary table. -/
theorem test_decode_roundF : decodeSel 0b00010000000#11 = .roundF 0 ∧ decodeSel 0b00010001111#11 = .roundF 15 := by decide
theorem test_decode_roundG : decodeSel 0b00010010000#11 = .roundG 16 ∧ decodeSel 0b00010011111#11 = .roundG 31 := by decide
theorem test_decode_roundH : decodeSel 0b00010100000#11 = .roundH 32 ∧ decodeSel 0b00010101111#11 = .roundH 47 := by decide
theorem test_decode_roundI : decodeSel 0b00010110000#11 = .roundI 48 ∧ decodeSel 0b00010111111#11 = .roundI 63 := by decide
/-- FINAL with start = 1. -/
theorem test_decode_final : decodeSel 0b01011111111#11 = .final := by decide
/-- START from IDLE, from DONE and from ERR. -/
theorem test_decode_start :
    decodeSel 0b01000000000#11 = .start ∧ decodeSel 0b01100111111#11 = .start ∧ decodeSel 0b01101000000#11 = .start := by
  decide
/-- HOLD in IDLE, in DONE and in ERR. -/
theorem test_decode_hold :
    decodeSel 0b00000000000#11 = .hold ∧ decodeSel 0b00100111111#11 = .hold ∧ decodeSel 0b00101000000#11 = .hold := by
  decide
/-- Bit 11 is no bit of SEL. -/
theorem test_decode_tooWide : decodeWord 0x840 = .error .widerThanSelector ∧ decodeTableWord 16 0x840 = none := by
  constructor <;> rfl

/-! ## Primitives and tables (95_test_vectors.md sections 1.2, 2.1, 2.2) -/

theorem test_rotl32 :
    rotl32 0x80000000 1 = 0x00000001 ∧ rotl32 0x00000001 31 = 0x80000000 ∧ rotl32 0x12345678 23 = 0x3c091a2b := by decide
theorem test_bswap32 : bswap32 0x98500190 = 0x90015098 := by decide
theorem test_roundFunctions :
    fnF 0x0f0f0f0f 0x00ff00ff 0x33333333 = 0x303f303f ∧ fnG 0x0f0f0f0f 0x00ff00ff 0x33333333 = 0x03cf03cf ∧
    fnH 0x0f0f0f0f 0x00ff00ff 0x33333333 = 0x3cc33cc3 ∧ fnI 0x0f0f0f0f 0x00ff00ff 0x33333333 = 0xcf30cf30 := by decide
/-- The sum of S is 848. -/
theorem test_rotationTable_sum :
    ((List.range 64).map fun i => (rotationAmount (BitVec.ofNat 6 i)).toNat).sum = 848 := by decide

/-! ## RESET, PH_RESERVED, HOLD, START (95_test_vectors.md section 2.7) -/

/-- RESET in ROUND, RI = 20, with start = 1. -/
theorem test_reset_inRound :
    nextIs (step { abcRound 20 ivQuad with inputs := [askReset] }) fun t =>
      t.ph == .val .idle && t.cause == .val .none && t.ri == .bot && t.a == .bot && t.len == .bot && t.blk == [] := by
  decide
/-- RESET from power-up; any other step from it faults (R231). -/
theorem test_powerUp :
    nextIs (step { State.powerUp with inputs := [askReset] }) (fun t => t == State.reset) = true ∧
    faultIs (step State.powerUp) .stepBeforeReset = true := by decide
theorem test_phReserved :
    faultIs (step (inReserved .reserved6)) .phReserved = true ∧
    faultIs (step { inReserved .reserved7 with inputs := [askAbc] }) .phReserved = true := by decide
/-- HOLD in ERR keeps `cause` (R120). -/
theorem test_hold_inErr : nextIs (step inErr) (fun t => t == inErr) = true := by decide
/-- R121's example. -/
theorem test_start_abc :
    nextIs (step (idleWith askAbc)) fun t =>
      readBytes t.msg 0 3 == .val abc && t.len == .val 3 && t.ph == .val .build && t.cause == .val .none &&
        t.busy == .val true && t.inputs == [] := by decide
/-- `len_in = 56` is the smallest illegal value. -/
theorem test_start_56 :
    nextIs (step (idleWith (ask 56))) fun t =>
      t.ph == .val .err && t.causeOut == .val 0b01 && t.len == .val 56 && t.err == .val true && t.busy == .val false := by
  decide

/-! ## BUILD (95_test_vectors.md section 2.3) -/

theorem test_build_abc :
    nextIs (exec .build abcBuild) fun t =>
      t.blk == abcBlock && t.a == .val 0x67452301 && t.d0 == .val 0x10325476 && t.ri == .val 0 && t.ph == .val .round := by
  decide
/-- 55 bytes of "a", the longest legal message: W[13], W[14] and W[15]. -/
theorem test_build_55 :
    nextIs (exec .build longBuild) fun t =>
      readByte t.blk 54 == .val 0x61 && readByte t.blk 55 == .val 0x80 && wordView t.blk 13 == .val 0x80616161 &&
        wordView t.blk 14 == .val 0x000001b8 && wordView t.blk 15 == .val 0 := by decide

/-! ## Rounds (95_test_vectors.md section 2.4): two rows of the "abc" trace for each operation -/

theorem test_roundF_0 :
    roundIs (exec (.roundF 0) (abcRound 0 ivQuad)) ⟨0x10325476, 0xd6d117b4, 0xefcdab89, 0x98badcfe⟩ 1 .round := by decide
theorem test_roundF_14 :
    roundIs (exec (.roundF 14) (abcRound 14 ⟨0x3020401c, 0xa1051895, 0xdda9b9a6, 0x5ed49596⟩))
      ⟨0x5ed49596, 0xe396856b, 0xa1051895, 0xdda9b9a6⟩ 15 .round := by decide
theorem test_roundG_16 :
    roundIs (exec (.roundG 16) (abcRound 16 ⟨0xdda9b9a6, 0x72aff2e0, 0xe396856b, 0xa1051895⟩))
      ⟨0xa1051895, 0x3e9e9126, 0x72aff2e0, 0xe396856b⟩ 17 .round := by decide
theorem test_roundG_19 :
    roundIs (exec (.roundG 19) (abcRound 19 ⟨0x72aff2e0, 0xe25e1652, 0x4a1d804e, 0x3e9e9126⟩))
      ⟨0x3e9e9126, 0xb5b204e4, 0xe25e1652, 0x4a1d804e⟩ 20 .round := by decide
theorem test_roundH_32 :
    roundIs (exec (.roundH 32) (abcRound 32 ⟨0x790a77fb, 0x726342d3, 0xa62884aa, 0x9f47e4f8⟩))
      ⟨0x9f47e4f8, 0xb3707ebf, 0x726342d3, 0xa62884aa⟩ 33 .round := by decide
theorem test_roundH_41 :
    roundIs (exec (.roundH 41) (abcRound 41 ⟨0x6e7429d5, 0x11de1779, 0x5a2f5ea5, 0x3575227e⟩))
      ⟨0x3575227e, 0xfadcaa38, 0x11de1779, 0x5a2f5ea5⟩ 42 .round := by decide
theorem test_roundI_48 :
    roundIs (exec (.roundI 48) (abcRound 48 ⟨0x7f2e507b, 0x7beb9700, 0x8fae6399, 0x99d9679d⟩))
      ⟨0x99d9679d, 0x7b201df8, 0x7beb9700, 0x8fae6399⟩ 49 .round := by decide
/-- The last round leaves RI at 63 and sets PH to FINAL. -/
theorem test_roundI_63 :
    roundIs (exec (.roundI 63) (abcRound 63 ⟨0x7327d604, 0xe484b9d8, 0x624d8cb2, 0x310ade8f⟩))
      ⟨0x310ade8f, 0xc08226b3, 0xe484b9d8, 0x624d8cb2⟩ 63 .final := by decide
/-- A round reads a `⊥` register: the model fault of R210. -/
theorem test_round_reads_bottom :
    faultIs (exec (.roundF 0) { abcRound 0 ivQuad with c := .bot }) (.readBottom .c) = true := by decide

/-! ## FINAL and the digest (95_test_vectors.md section 2.6) -/

theorem test_final_abc :
    nextIs (exec .final (abcFinal ⟨0x310ade8f, 0xc08226b3, 0xe484b9d8, 0x624d8cb2⟩)) fun t =>
      t.a0 == .val 0x98500190 && t.b0 == .val 0xb04fd23c && t.ph == .val .done && t.a == .val 0x310ade8f &&
        t.digestOut == .val 0x900150983cd24fb0d6963f7d28e17f72 := by decide
/-- The empty message: C0 wraps. -/
theorem test_final_empty :
    nextIs (exec .final (abcFinal ⟨0x7246fad3, 0x14e45506, 0xff4ea3eb, 0x6e10a476⟩)) fun t =>
      t.c0 == .val 0x980980e9 && t.digestOut == .val 0xd41d8cd98f00b204e9800998ecf8427e := by decide
/-- Section 1.2: the hex prefixes of "abc" and of "abcdef609043". -/
theorem test_hexPrefix :
    hexPrefix 0x900150983cd24fb0d6963f7d28e17f72 5 = 0x90015 ∧ hexPrefix 0x000001dbbfa3a5c83a2d506429c7b00e 6 = 0x1 ∧
    hexPrefix 0x900150983cd24fb0d6963f7d28e17f72 0 = 0 := by decide

/-! ## The step and the host's lines -/

/-- A selector placed in the state selects its operation: ROUND_F 10, with start = 1 (section 2.7). -/
theorem test_withFetchWord :
    nextIs (step ((abcRound 0 ivQuad).withFetchWord 11 0b01010001010)) (fun t => t.ri == .val 11) = true := by decide
/-- Program P1, step 2. -/
theorem test_line_startText :
    ranTo (runLine (.startText abc) State.reset) (fun t => t.len == .val 3 && readByte t.msg 2 == .val 0x63) = true := by
  decide
/-- Program P2, steps 1 and 2, with its EXPECT line. -/
theorem test_lines_inputTooLong :
    ranTo (runProgram [.reset, .startPorts 56 0x61, .expect [.err true, .cause 0b01, .busy false, .done false]]
      State.powerUp) (fun t => t.ph == .val .err) = true := by decide

/-! ## Witnesses: each statement's hypotheses are met -/

theorem witness_DecodeInvertsEncode :
    (Instr.roundG 31).wf = true ∧ decodeSel 0b01010011111#11 = .roundG 31 := by decide

theorem witness_EverySelectorFallsToOneRow :
    decodeSel 0b00010011111#11 = .roundG 31 ∧ decodeSel 0b00010100000#11 = .roundH 32 := by decide

theorem witness_OnlySelectorsDecode : 2047 < 2 ^ 11 ∧ 2 ^ 11 ≤ 2048 := by decide

theorem witness_SelectorIsFormed :
    (abcRound 63 ivQuad).ph = .val .round ∧ (abcRound 63 ivQuad).ri = .val 63 ∧
    (State.reset.ph = .val .idle ∧ State.reset.ri = .bot ∧ Phase.idle ≠ .round) ∧
    { abcRound 0 ivQuad with ri := .bot, inputs := [askReset] }.ph = .val .round ∧
    { abcRound 0 ivQuad with ri := .bot, inputs := [askReset] }.sample.rst = true := by decide

theorem witness_StepRunsTheDecodedOperation :
    (∃ t, fetch abcBuild = .ok 0b00001000000#11 ∧ exec (decodeSel 0b00001000000#11) abcBuild = .next t) ∧
    fetch (inReserved .reserved6) = .ok 0b00110000000#11 ∧
    exec (decodeSel 0b00110000000#11) (inReserved .reserved6) = .fault .phReserved :=
  ⟨⟨_, rfl, rfl⟩, rfl, rfl⟩

theorem witness_FetchWordSelectsItsOperation : decodeTableWord 11 0b00010111111 = some (.roundI 63) := by rfl

theorem witness_PriorityOfSimultaneousEvents :
    { abcBuild with inputs := [askReset] }.sample.rst = true ∧
    (abcBuild.sample.rst = false ∧ abcBuild.ph = .val .build) ∧
    ((abcRound 63 ivQuad).sample.rst = false ∧ (abcRound 63 ivQuad).ph = .val .round ∧
      (abcRound 63 ivQuad).ri = .val 63) ∧
    ((abcFinal ivQuad).sample.rst = false ∧ (abcFinal ivQuad).ph = .val .final) ∧
    ((idleWith askAbc).sample.rst = false ∧ Waiting (idleWith askAbc) ∧ (idleWith askAbc).sample.start = true) ∧
    (inErr.sample.rst = false ∧ Waiting inErr ∧ inErr.sample.start = false) := by decide

theorem witness_ResetWritesTheResetState : { abcBuild with inputs := [askReset] }.sample.rst = true := by decide

theorem witness_PowerUpNeedsReset :
    { State.powerUp with inputs := [askReset] }.sample.rst = true ∧
    { State.powerUp with inputs := [askAbc] }.sample.rst = false := by decide

theorem witness_HoldChangesNothing :
    (∃ w, fetch inErr = .ok w ∧ decodeSel w = .hold) ∧
    Waiting (doneWith ivQuad) ∧ (doneWith ivQuad).sample.rst = false ∧ (doneWith ivQuad).sample.start = false :=
  ⟨⟨_, rfl, by decide⟩, by decide⟩

theorem witness_StartLatchesAndChecksTheLength :
    (∃ w, fetch (idleWith (ask 55)) = .ok w ∧ decodeSel w = .start) ∧
    (idleWith (ask 55)).sample.lenIn.toNat ≤ 55 ∧ 55 < (idleWith (ask 56)).sample.lenIn.toNat :=
  ⟨⟨_, rfl, by decide⟩, by decide⟩

theorem witness_StartFrame :
    (∃ t, exec .start { inErr with inputs := [ask 55] } = .next t) ∧ Memory.wf 55 inErr.msg = true :=
  ⟨⟨_, exec_start_legal (by decide)⟩, by decide⟩

theorem witness_InputTooLongIsTakenAsARejection :
    55 < (idleWith (ask 56)).sample.lenIn.toNat ∧ 55 < (idleWith (ask 63)).sample.lenIn.toNat := by decide

theorem witness_ErrorIsLeftByStartOrReset :
    inErr.ph = .val .err ∧ (inErr.sample.rst = false ∧ inErr.sample.start = false) ∧
    ({ inErr with inputs := [ask 55] }.sample.start = true ∧ { inErr with inputs := [ask 55] }.sample.lenIn.toNat ≤ 55) ∧
    55 < { inErr with inputs := [ask 56] }.sample.lenIn.toNat ∧
    { inErr with inputs := [askReset] }.sample.rst = true := by decide

theorem witness_StartWhileBusyLeavesNoTrace :
    Busy abcBuild ∧ Busy (abcRound 10 ivQuad) ∧ Busy (abcFinal ivQuad) ∧ askAbc.rst = false ∧
    Ports.quiet.rst = false := by decide

theorem witness_HeldStartStartsAgain :
    (doneWith ivQuad).ph = .val .done ∧ inErr.ph = .val .err ∧
    { doneWith ivQuad with inputs := [askAbc] }.sample.rst = false ∧
    { doneWith ivQuad with inputs := [askAbc] }.sample.start = true := by decide

theorem witness_BuildLoadsBlockAndRegisters :
    longBuild.len = .val 55 ∧ (55 : Length).toNat ≤ 55 ∧
    readBytes longBuild.msg 0 (55 : Length).toNat = .val (List.replicate 55 0x61) := by decide

theorem witness_BuildStopsOnlyWithoutALegalMessage :
    { abcBuild with len := .bot }.len = .bot ∧
    (inErr.len = .val 56 ∧ 55 < (56 : Length).toNat) ∧
    ({ abcBuild with len := .val 4 }.len = .val 4 ∧ (4 : Length).toNat ≤ 55 ∧
      ∃ k < (4 : Length).toNat, readByte abcBuild.msg k = .bot) ∧
    (longBuild.len = .val 55 ∧ ∀ k < (55 : Length).toNat, readByte longBuild.msg k ≠ .bot) := by decide

theorem witness_BuildFrame :
    (∃ t, exec .build { abcBuild with blk := abcBlock } = .next t) ∧ Memory.wf 64 abcBlock = true :=
  ⟨⟨_, rfl⟩, by decide⟩

theorem witness_BlockMapAfterBuild : longBuild.len = .val 55 ∧ ∃ t, exec .build longBuild = .next t := ⟨rfl, _, rfl⟩

theorem witness_PadInvariants :
    (List.replicate 55 (0x61 : Byte)).length = 55 ∧ ([] : List Byte).length ≤ 55 ∧ 58 ≤ 63 ∧ 63 < 64 := by decide

theorem witness_WordViewIsLittleEndian :
    readByte abcBlock (4 * (0 : BitVec 4).toNat) = .val 0x61 ∧ readByte abcBlock (4 * (0 : BitVec 4).toNat + 1) = .val 0x62 ∧
    readByte abcBlock (4 * (0 : BitVec 4).toNat + 2) = .val 0x63 ∧
    readByte abcBlock (4 * (0 : BitVec 4).toNat + 3) = .val 0x80 := by decide

theorem witness_WordsOfThePaddedBlock :
    abc.length ≤ 55 ∧ abc.length < 4 * (13 : BitVec 4).toNat ∧ (13 : BitVec 4).toNat ≤ 13 := by decide

theorem witness_MemReadAfterMemWrite :
    (∀ k < 3, readByte abcBlock (0 + k) = .val (abc.getD k 0)) ∧ (7 < 8) ∧ (55 < 56 ∨ 56 + 8 ≤ 55) ∧
    (64 < 56 ∨ 56 + 8 ≤ 64) := by decide

/-- R143's example: lanes beyond the length differ. -/
theorem witness_BlockIgnoresBytesBeyondTheLength :
    abcBuild.len = .val 3 ∧ (∀ k < (3 : Length).toNat, readByte (listing [0x61, 0x62, 0x63, 0xFF]) k = readByte abcBuild.msg k) ∧
    (∃ t, exec .build abcBuild = .next t) ∧
    (∀ k < (3 : Length).toNat, lane 0x636261 k = lane 0xFFFFFF636261 k) ∧
    ∃ t u t' u', exec .start { State.reset with inputs := [askAbc] } = .next t ∧
      exec .start { State.reset with inputs := [{ askAbc with msgIn := 0xFFFFFF636261 }] } = .next u ∧
      exec .build t = .next t' ∧ exec .build u = .next u' :=
  ⟨rfl, by decide, ⟨_, rfl⟩, by decide, _, _, _, _, exec_start_legal (by decide), exec_start_legal (by decide),
    exec_build_of (n := 3) (m := abc) rfl (by decide) (by decide),
    exec_build_of (n := 3) (m := abc) rfl (by decide) (by decide)⟩

theorem witness_RoundFunctionsBitByBit : 31 < 32 := by decide

theorem witness_RotationIsCircular : 1 ≤ (31 : BitVec 5).toNat ∧ 31 < 32 := by decide

theorem witness_WordIndexSchedule :
    (15 : RoundIndex).toNat < 16 ∧ (16 ≤ (16 : RoundIndex).toNat ∧ (31 : RoundIndex).toNat < 32) ∧
    (32 ≤ (32 : RoundIndex).toNat ∧ (47 : RoundIndex).toNat < 48) ∧ 48 ≤ (48 : RoundIndex).toNat ∧
    quarter 16 = 1 ∧ wordIndex 16 = 1 := by decide

/-- What the result statement of a round asks of the state. -/
abbrev RoundReady (s : State) (g : BitVec 4) : Prop :=
  ∃ a b c d w, s.a = .val a ∧ s.b = .val b ∧ s.c = .val c ∧ s.d = .val d ∧ wordView s.blk g = .val w

theorem witness_RoundFResult :
    (15 : RoundIndex).toNat < 16 ∧ RoundReady (abcRound 15 ivQuad) (BitVec.ofNat 4 (15 : RoundIndex).toNat) :=
  ⟨by decide, _, _, _, _, 0, rfl, rfl, rfl, rfl, by decide⟩

theorem witness_RoundGResult :
    16 ≤ (31 : RoundIndex).toNat ∧ (31 : RoundIndex).toNat < 32 ∧
    RoundReady (abcRound 31 ivQuad) (BitVec.ofNat 4 ((5 * (31 : RoundIndex).toNat + 1) % 16)) :=
  ⟨by decide, by decide, _, _, _, _, 0, rfl, rfl, rfl, rfl, by decide⟩

theorem witness_RoundHResult :
    32 ≤ (32 : RoundIndex).toNat ∧ (32 : RoundIndex).toNat < 48 ∧
    RoundReady (abcRound 32 ivQuad) (BitVec.ofNat 4 ((3 * (32 : RoundIndex).toNat + 5) % 16)) :=
  ⟨by decide, by decide, _, _, _, _, 0, rfl, rfl, rfl, rfl, by decide⟩

theorem witness_RoundIResult :
    48 ≤ (63 : RoundIndex).toNat ∧ RoundReady (abcRound 63 ivQuad) (BitVec.ofNat 4 (7 * (63 : RoundIndex).toNat % 16)) :=
  ⟨by decide, _, _, _, _, 0, rfl, rfl, rfl, rfl, by decide⟩

theorem witness_RoundsFrame :
    (∃ t, exec (.roundF 0) (abcRound 0 ivQuad) = .next t) ∧ (∃ t, exec (.roundG 16) (abcRound 16 ivQuad) = .next t) ∧
    (∃ t, exec (.roundH 32) (abcRound 32 ivQuad) = .next t) ∧ ∃ t, exec (.roundI 63) (abcRound 63 ivQuad) = .next t :=
  ⟨⟨_, rfl⟩, ⟨_, rfl⟩, ⟨_, rfl⟩, _, rfl⟩

theorem witness_RoundsAdvanceTheSequencer :
    ((abcRound 62 ivQuad).ri = .val 62 ∧ (62 : RoundIndex).toNat < 63 ∧
      ∃ t, exec (roundInstr 62) (abcRound 62 ivQuad) = .next t) ∧
    (abcRound 63 ivQuad).ri = .val 63 ∧ (63 : RoundIndex).toNat = 63 ∧
      ∃ t, exec (roundInstr 63) (abcRound 63 ivQuad) = .next t :=
  ⟨⟨rfl, by decide, _, rfl⟩, rfl, rfl, _, rfl⟩

theorem witness_SixtyFourRoundsCompress :
    (abcRound 0 ivQuad).ph = .val .round ∧ (abcRound 0 ivQuad).ri = .val 0 ∧ WorkIs (abcRound 0 ivQuad) ivQuad ∧
    (∀ j : BitVec 4, wordView (abcRound 0 ivQuad).blk j = .val (if j = 0 then 0x80636261 else if j = 14 then 0x18 else 0)) ∧
    ∀ k < 64, (sampleAt (abcRound 0 ivQuad) k).rst = false :=
  ⟨rfl, rfl, by decide, by decide, fun _ _ => rfl⟩

theorem witness_FinalFoldsTheAccumulators :
    WorkIs (abcFinal ⟨1, 2, 3, 4⟩) ⟨1, 2, 3, 4⟩ ∧ AccIs (abcFinal ⟨1, 2, 3, 4⟩) ivQuad := by decide

theorem witness_FinalFrame : ∃ t, exec .final (abcFinal ivQuad) = .next t := ⟨_, rfl⟩

theorem witness_DigestOutputLayout :
    (doneWith ⟨1, 2, 3, 4⟩).ph = .val .done ∧ AccIs (doneWith ⟨1, 2, 3, 4⟩) ⟨1, 2, 3, 4⟩ ∧ 3 < 4 := by decide

theorem witness_DigestIsBottomOutsideDone :
    abcBuild.ph ≠ .val .done ∧ State.powerUp.ph ≠ .val .done ∧ (doneWith ivQuad).ph = .val .done ∧
    AccIs (doneWith ivQuad) ivQuad := by decide

theorem witness_HexPrefixProperty : 32 ≤ 32 := by decide

theorem witness_StatusOutputs :
    abcBuild.ph = .val .build ∧ (doneWith ivQuad).ph = .val .done ∧ abcBuild.cause = .val .none ∧
    inErr.cause = .val .inputTooLong ∧ { inErr with cause := .val .reserved2 }.cause = .val .reserved2 ∧
    { inErr with cause := .val .reserved3 }.cause = .val .reserved3 := by decide

theorem witness_WaitingKeepsTheDigest :
    (doneWith ivQuad).ph = .val .done ∧
    ∀ k < 3, (sampleAt (doneWith ivQuad) k).rst = false ∧ (sampleAt (doneWith ivQuad) k).start = false := by decide

theorem witness_PhaseTransitions :
    (∃ t, step { abcBuild with inputs := [askReset] } = .next t) ∧
    (Waiting inErr ∧ inErr.sample.start = false ∧ ∃ t, step inErr = .next t) ∧
    (Waiting (idleWith (ask 56)) ∧ (idleWith (ask 56)).sample.start = true ∧ ∃ t, step (idleWith (ask 56)) = .next t) ∧
    (abcBuild.ph = .val .build ∧ ∃ t, step abcBuild = .next t) ∧
    ((abcRound 63 ivQuad).ph = .val .round ∧ (abcRound 63 ivQuad).ri = .val 63 ∧
      ∃ t, step (abcRound 63 ivQuad) = .next t) ∧
    (abcFinal ivQuad).ph = .val .final ∧ ∃ t, step (abcFinal ivQuad) = .next t :=
  ⟨⟨_, rfl⟩, ⟨by decide, rfl, _, rfl⟩,
    ⟨by decide, rfl, _, step_start_illegal rfl (by decide) rfl (by decide)⟩, ⟨rfl, _, rfl⟩, ⟨rfl, rfl, _, rfl⟩, rfl, _, rfl⟩

theorem witness_RoundIndexTransitions :
    (abcBuild.sample.rst = false ∧ abcBuild.ph = .val .build ∧ ∃ t, step abcBuild = .next t) ∧
    ((abcRound 62 ivQuad).ph = .val .round ∧ (abcRound 62 ivQuad).ri = .val 62 ∧
      ∃ t, step (abcRound 62 ivQuad) = .next t) ∧
    (inErr.ph ≠ .val .build ∧ inErr.ph ≠ .val .round ∧ ∃ t, step inErr = .next t) ∧ Phase.done ≠ .round :=
  ⟨⟨rfl, rfl, _, rfl⟩, ⟨rfl, rfl, _, rfl⟩, ⟨by decide, by decide, _, rfl⟩, by decide⟩

theorem witness_ReservedPhasesFaultAndAreNeverWritten :
    (∃ t, step abcBuild = .next t) ∧ (∃ t, run 1 { State.reset with inputs := [Ports.quiet] } = .next t) ∧
    (inReserved .reserved6).ph = .val .reserved6 ∧ (inReserved .reserved7).ph = .val .reserved7 ∧
    (inReserved .reserved6).sample.rst = false :=
  ⟨⟨_, rfl⟩, ⟨_, rfl⟩, rfl, rfl, rfl⟩

theorem witness_RequestStepCounts :
    Waiting (idleWith (ask 55)) ∧ (idleWith (ask 55)).sample.rst = false ∧ (idleWith (ask 55)).sample.start = true ∧
    (idleWith (ask 55)).sample.lenIn.toNat ≤ 55 ∧ 55 < (idleWith (ask 56)).sample.lenIn.toNat ∧
    ∀ k < 67, 1 ≤ k → (sampleAt (idleWith (ask 55)) k).rst = false := by decide

theorem witness_RequestComputesTheDigest :
    Waiting inErr ∧ { inErr with inputs := [ask 0] }.sample.rst = false ∧
    { inErr with inputs := [ask 0] }.sample.start = true ∧ { inErr with inputs := [ask 0] }.sample.lenIn.toNat ≤ 55 ∧
    ∀ k < 67, 1 ≤ k → (sampleAt { inErr with inputs := [ask 0] } k).rst = false := by decide

theorem witness_StepKeepsShape :
    (Shape abcBuild ∧ ∃ t, step abcBuild = .next t) ∧ Shape inErr ∧ ∃ t, step { inErr with inputs := [ask 3] } = .next t :=
  ⟨⟨by decide, _, rfl⟩, by decide, _, rfl⟩

/-- The invariant holds somewhere in every phase, not in IDLE alone. -/
theorem witness_StepsKeepTrackingTheRequest :
    Tracks State.reset ∧ Tracks abcBuild ∧ Tracks (abcRound 0 ivQuad) ∧
    Tracks (abcFinal (compress (blockWord abc))) ∧ Tracks (doneWith (ivQuad.add (compress (blockWord abc)))) ∧
    Tracks inErr := by
  have latched : 3 ≤ Config.maxLen ∧ readBytes (listing abc) 0 3 = .val abc := by decide
  have block : abcBlock = pad abc := by decide
  exact ⟨trivial, ⟨abc, latched.1, rfl, latched.2⟩,
    ⟨abc, 0, ⟨latched.1, rfl, latched.2⟩, block, rfl, ⟨rfl, rfl, rfl, rfl⟩, ⟨rfl, rfl, rfl, rfl⟩⟩,
    ⟨abc, ⟨latched.1, rfl, latched.2⟩, block, rfl, ⟨rfl, rfl, rfl, rfl⟩, ⟨rfl, rfl, rfl, rfl⟩⟩,
    ⟨abc, ⟨latched.1, rfl, latched.2⟩, ⟨rfl, rfl, rfl, rfl⟩⟩, ⟨56, rfl, by decide⟩⟩

theorem witness_RunsFromResetReadNoBottom :
    { State.powerUp with inputs := [askReset, askAbc] }.sample.rst = true ∧
    { abcRound 20 ivQuad with inputs := [askReset] }.sample.rst = true := by decide

theorem witness_DoneShowsTheDigestOfTheLatchedMessage :
    Tracks (doneWith (ivQuad.add (compress (blockWord abc)))) ∧
    (doneWith (ivQuad.add (compress (blockWord abc)))).done = .val true :=
  ⟨witness_StepsKeepTrackingTheRequest.2.2.2.2.1, rfl⟩

theorem witness_PseudoOperationsExpand :
    Waiting State.reset ∧ (List.replicate 55 (0x61 : Byte)).length ≤ 55 ∧ Tracks (abcRound 0 ivQuad) :=
  ⟨by decide, by decide, witness_StepsKeepTrackingTheRequest.2.2.1⟩

theorem witness_OversizeTextIsNeverHashed :
    64 ≤ (List.replicate 64 (0x61 : Byte)).length ∧
    (56 ≤ (List.replicate 56 (0x61 : Byte)).length ∧ (List.replicate 63 (0x61 : Byte)).length < 64) ∧
    Waiting State.reset := by decide

end Sys2Proof.Tests
end

section
/-! PROOFS. The little-endian memory primitives of spec/00_scope.md R18: what MemRead gives when the bytes are known,
and what MemWrite leaves to be read. -/

namespace Sys2Proof.Machine

/-- The value of `MemRead` where every byte is known (R18). -/
theorem memRead_of_readByte {m : Memory} {addr n : Nat} {f : Nat → Byte}
    (h : ∀ k < n, readByte m (addr + k) = .val (f k)) :
    memRead m addr n = .val (((List.range n).map fun k => (f k).toNat * 2 ^ (8 * k)).sum) := by
  induction n with
  | zero => rfl
  | succ n ih =>
    have hlow := ih fun k hk => h k (by omega)
    have htop := h n (by omega)
    simp [memRead, hlow, htop, Elem.map2, List.range_succ]

/-- A number's first `n` bytes, weighted little-endian, are the number modulo `2^(8n)`. -/
theorem sum_byteOfNat (v n : Nat) :
    ((List.range n).map fun k => (byteOfNat v k).toNat * 2 ^ (8 * k)).sum = v % 2 ^ (8 * n) := by
  induction n with
  | zero => simp [Nat.mod_one]
  | succ n ih =>
    have hsplit : v % 2 ^ (8 * (n + 1)) = v % 2 ^ (8 * n) + 2 ^ (8 * n) * (v / 2 ^ (8 * n) % 2 ^ 8) := by
      rw [Nat.mul_succ, Nat.pow_add, Nat.mod_mul]
    rw [List.range_succ, List.map_append, List.sum_append, ih, hsplit]
    simp [byteOfNat, Nat.mul_comm]

theorem readByte_memWrite_inside (m : Memory) (addr v : Nat) {n k : Nat} (h : k < n) :
    readByte (memWrite m addr n v) (addr + k) = .val (byteOfNat v k) := by
  have hread := readByte_writeBytes_inside m addr k ((List.range n).map (byteOfNat v)) (by simpa using h)
  simpa [memWrite] using hread

theorem readByte_memWrite_outside (m : Memory) (v : Nat) {addr n x : Nat} (h : x < addr ∨ addr + n ≤ x) :
    readByte (memWrite m addr n v) x = readByte m x :=
  readByte_writeBytes_outside m addr x _ (by simpa using h)

/-- `MemRead(addr, n)` after `MemWrite(addr, n, v)` "then returns v mod 2^(8n)" (R18). -/
theorem memRead_memWrite (m : Memory) (addr n v : Nat) :
    memRead (memWrite m addr n v) addr n = .val (v % 2 ^ (8 * n)) := by
  rw [memRead_of_readByte fun k hk => readByte_memWrite_inside m addr v hk, sum_byteOfNat]

/-- Settles O26: the value of a read by induction on its size, and the bytes a write leaves from the laws of
`writeBytes`. -/
theorem memReadAfterMemWrite : Obligations.MemReadAfterMemWrite :=
  ⟨fun _ _ _ _ hf => memRead_of_readByte hf, fun m addr n v =>
    ⟨fun _ hk => readByte_memWrite_inside m addr v hk, memRead_memWrite m addr n v,
      fun _ hx => readByte_memWrite_outside m v hx⟩⟩

end Sys2Proof.Machine
end

section
/-! PROOFS. The circular left shift of spec/00_scope.md R16: its formula, where each bit goes, and that it loses none. -/

namespace Sys2Proof.Machine

theorem rotl32_zero (x : Word) : rotl32 x 0 = x := rfl

theorem rotl32_of_pos (x : Word) {n : BitVec 5} (h : 1 ≤ n.toNat) :
    rotl32 x n = (x <<< n.toNat) ||| (x >>> (32 - n.toNat)) :=
  if_neg (by rintro rfl; simp at h)

/-- The formula of R16 for the amounts 1 to 31. -/
theorem rotl32_toNat (x : Word) {n : BitVec 5} (h : 1 ≤ n.toNat) :
    (rotl32 x n).toNat = (x.toNat * 2 ^ n.toNat ||| x.toNat / 2 ^ (32 - n.toNat)) % 2 ^ 32 := by
  have hright : x.toNat / 2 ^ (32 - n.toNat) < 2 ^ 32 := (Nat.div_le_self _ _).trans_lt x.isLt
  rw [rotl32_of_pos x h, BitVec.toNat_or, BitVec.toNat_shiftLeft, BitVec.toNat_ushiftRight, Nat.shiftLeft_eq,
    Nat.shiftRight_eq_div_pow, Nat.or_mod_two_pow, Nat.mod_eq_of_lt hright]

/-- Bit `k` moves to bit `(k + n) mod 32`: the left shift brings it there when it stays below bit 32, and the right
shift when it wraps. -/
theorem rotl32_getLsbD (x : Word) (n : BitVec 5) {k : Nat} (hk : k < 32) :
    (rotl32 x n).getLsbD ((k + n.toNat) % 32) = x.getLsbD k := by
  have hn : n.toNat < 32 := n.isLt
  rcases Nat.eq_zero_or_pos n.toNat with h0 | hpos
  · obtain rfl : n = 0 := BitVec.eq_of_toNat_eq h0
    rw [rotl32_zero, h0, Nat.add_zero, Nat.mod_eq_of_lt hk]
  rw [rotl32_of_pos x hpos, BitVec.getLsbD_or, BitVec.getLsbD_shiftLeft, BitVec.getLsbD_ushiftRight]
  rcases Nat.lt_or_ge (k + n.toNat) 32 with hstay | hwrap
  · have hout : x.getLsbD (32 - n.toNat + (k + n.toNat)) = false := BitVec.getLsbD_of_ge x _ (by omega)
    simp [Nat.mod_eq_of_lt hstay, hstay, hout]
  · have hmod : (k + n.toNat) % 32 = k + n.toNat - 32 := by omega
    have hback : 32 - n.toNat + (k + n.toNat - 32) = k := by omega
    have hlow : k + n.toNat - 32 < n.toNat := by omega
    simp [hmod, hback, hlow]

theorem rotl32_injective (n : BitVec 5) : Function.Injective fun x : Word => rotl32 x n := by
  intro x y (hxy : rotl32 x n = rotl32 y n)
  refine BitVec.eq_of_getLsbD_eq fun k hk => ?_
  rw [← rotl32_getLsbD x n hk, hxy, rotl32_getLsbD y n hk]

/-- Settles O29: every bit of a word can be read back from its rotation, so the rotation is injective, and words are
finitely many. -/
theorem rotationIsCircular : Obligations.RotationIsCircular := fun n =>
  ⟨rotl32_zero, fun x hn => rotl32_toNat x hn, fun x _ hk => rotl32_getLsbD x n hk,
    Finite.injective_iff_bijective.1 (rotl32_injective n)⟩

end Sys2Proof.Machine
end

section
/-! PROOFS. The sequencer of spec/10_state.md R39 and R40: where each phase's step leaves PH and RI. -/

namespace Sys2Proof.Machine

open Sys2Proof.Safety

/-! ## What the step of a busy phase did, when it answered -/

theorem step_build_next {s t : State} (hr : s.sample.rst = false) (hp : s.ph = .val .build) (h : step s = .next t) :
    ∃ n m, s.len = .val n ∧ n.toNat ≤ 55 ∧ readBytes s.msg 0 n.toNat = .val m ∧ t = (builtState s m).dropSample := by
  obtain ⟨u, hu, rfl⟩ := exec_of_step h (selects_of_phase hr hp nofun (decodeSel_build _))
  obtain ⟨n, m, hlen, hn, hm, rfl⟩ := exec_build_next hu
  exact ⟨n, m, hlen, hn, hm, rfl⟩

theorem step_round_next {s t : State} {i : RoundIndex} (hr : s.sample.rst = false) (hp : s.ph = .val .round)
    (hi : s.ri = .val i) (h : step s = .next t) :
    ∃ q w, WorkIs s q ∧ wordView s.blk (wordIndex i) = .val w ∧
      t = (advanceRound i (s.setWork (roundUpdate (roundFunction i) i w q))).dropSample := by
  obtain ⟨u, hu, rfl⟩ := exec_of_step h ⟨_, fetch_val hr hp hi, decodeSel_round _ _⟩
  rw [exec_roundInstr] at hu
  obtain ⟨q, w, hq, hw, rfl⟩ := roundOp_next hu
  exact ⟨q, w, hq, hw, rfl⟩

theorem step_final_next {s t : State} (hr : s.sample.rst = false) (hp : s.ph = .val .final) (h : step s = .next t) :
    ∃ q r, WorkIs s q ∧ AccIs s r ∧ t = ({ s with ph := .val .done }.setAcc (r.add q)).dropSample := by
  obtain ⟨u, hu, rfl⟩ := exec_of_step h (selects_of_phase hr hp nofun (decodeSel_final _))
  obtain ⟨q, r, hq, ha, rfl⟩ := exec_final_next hu
  exact ⟨q, r, hq, ha, rfl⟩

/-! ## PH -/

/-- START goes to BUILD or to ERR, by the length on the port (R39, R121). -/
theorem step_start_ph {s t : State} (hr : s.sample.rst = false) (hw : Waiting s) (hs : s.sample.start = true)
    (h : step s = .next t) : t.ph = if s.sample.lenIn.toNat ≤ 55 then .val .build else .val .err := by
  split
  next hl => cases (step_start_legal hr hw hs hl).symm.trans h; rfl
  next hl => cases (step_start_illegal hr hw hs (by omega)).symm.trans h; rfl

/-- Settles O48: one clause for each operation, from what a step in its phase leaves. -/
theorem phaseTransitions : Obligations.PhaseTransitions := by
  intro s t h
  refine ⟨fun hr => ?reset, fun hr => ⟨fun hw hs => ?hold, fun hw hs => step_start_ph hr hw hs h, fun hp => ?build,
    fun i hp hi => ?round, fun hp => ?final⟩⟩
  case reset => cases (step_reset hr).symm.trans h; rfl
  case hold => cases (step_hold hr hw hs).symm.trans h; rfl
  case build => obtain ⟨_, _, -, -, -, rfl⟩ := step_build_next hr hp h; rfl
  case round =>
    obtain ⟨_, _, -, -, rfl⟩ := step_round_next hr hp hi h
    rw [State.dropSample_ph, advanceRound_ph, State.setWork_ph, hp]
  case final => obtain ⟨_, _, -, -, rfl⟩ := step_final_next hr hp h; rfl

/-! ## RI -/

/-- Round 63 is the only one that is not followed by another, so RI stays on 63 after it (R40). -/
theorem step_round_ri {s t : State} {i : RoundIndex} (hr : s.sample.rst = false) (hp : s.ph = .val .round)
    (hi : s.ri = .val i) (h : step s = .next t) : t.ri = if i.toNat < 63 then .val (i + 1) else .val 63 := by
  obtain ⟨_, _, -, -, rfl⟩ := step_round_next hr hp hi h
  rw [State.dropSample_ri, advanceRound_ri, State.setWork_ri, hi]
  split
  next => rfl
  next hlast =>
    have hbound : i.toNat < 64 := i.isLt
    obtain rfl : i = 63 := BitVec.eq_of_toNat_eq (show i.toNat = 63 by omega)
    rfl

/-- Only BUILD, the rounds and RESET write RI (R48). -/
theorem step_ri_of_neither_build_nor_round {s t : State} (hr : s.sample.rst = false) (hb : s.ph ≠ .val .build)
    (hn : s.ph ≠ .val .round) (h : step s = .next t) : t.ri = s.ri := by
  rcases step_cases h with ⟨hreset, -⟩ | ⟨-, hold | start | reject | build | round | final⟩
  · simp [hr] at hreset
  · obtain ⟨-, -, rfl⟩ := hold; rfl
  · obtain ⟨-, -, -, rfl⟩ := start; rfl
  · obtain ⟨-, -, -, rfl⟩ := reject; rfl
  · obtain ⟨hp, -⟩ := build; exact absurd hp hb
  · obtain ⟨hp, -⟩ := round; exact absurd hp hn
  · obtain ⟨-, _, _, -, -, rfl⟩ := final; rfl

/-- Outside PH = ROUND the bits of RI are don't-care (R40, R92). -/
theorem decodeSel_ignores_ri (st : Bool) {p : Phase} (hp : p ≠ .round) (i j : RoundIndex) :
    decodeSel (selOf false st p i) = decodeSel (selOf false st p j) := by
  cases p with
  | round => exact absurd rfl hp
  | build => rw [decodeSel_build, decodeSel_build]
  | final => rw [decodeSel_final, decodeSel_final]
  | idle => simp only [decodeSel_waiting st .idle (.inl rfl)]
  | done => simp only [decodeSel_waiting st .done (.inr (.inl rfl))]
  | err => simp only [decodeSel_waiting st .err (.inr (.inr rfl))]
  | reserved6 => simp only [decodeSel_reserved st .reserved6 (.inl rfl)]
  | reserved7 => simp only [decodeSel_reserved st .reserved7 (.inr rfl)]

/-- Settles O49: BUILD and the rounds from what their steps leave, the rest because nothing else writes RI. -/
theorem roundIndexTransitions : Obligations.RoundIndexTransitions := by
  intro s t hr h
  refine ⟨fun hp => ?build, fun i hp hi => step_round_ri hr hp hi h,
    fun hb hn => step_ri_of_neither_build_nor_round hr hb hn h, fun _ st i j hp => decodeSel_ignores_ri st hp i j⟩
  obtain ⟨_, _, -, -, -, rfl⟩ := step_build_next hr hp h
  rfl

end Sys2Proof.Machine
end

section
/-! PROOFS. The safety of runs, spec/10_state.md R47: what a phase reads was written by the operations before it, so no
run that starts with RESET reads `⊥`. -/

namespace Sys2Proof.Machine

open Sys2Proof.Safety

/-- The operation that PH selects finds a value in every element it reads, and so will the ones after it up to DONE:
R47's argument as an invariant of the step. It says that the values are there, not what they are. -/
inductive OperandsReady (s : State) : Prop where
  /-- HOLD and START read no element. -/
  | waiting (hw : Waiting s)
  /-- BUILD reads LEN, which is legal, and MSG[0..LEN-1] (R143). -/
  | build {n : Length} {m : List Byte} (hp : s.ph = .val .build) (hlen : s.len = .val n) (hn : n.toNat ≤ 55)
      (hm : readBytes s.msg 0 n.toNat = .val m)
  /-- The rounds read RI, A..D and words of BLK; FINAL will read A0..D0. -/
  | round {i : RoundIndex} {q r : Quad} (hp : s.ph = .val .round) (hi : s.ri = .val i) (hq : WorkIs s q)
      (ha : AccIs s r) (hblk : ∀ j, ∃ w, wordView s.blk j = .val w)
  /-- FINAL reads A..D and A0..D0. -/
  | final {q r : Quad} (hp : s.ph = .val .final) (hq : WorkIs s q) (ha : AccIs s r)

/-- START writes every byte that BUILD can read (R47, R121). -/
theorem readBytes_latchBytes (v : MsgLanes) {n : Nat} (hn : n ≤ 55) :
    readBytes (latchBytes v) 0 n = .val ((List.range n).map (lane v)) :=
  readBytes_of_readByte fun k hk => by
    rw [Nat.zero_add, readByte_latchBytes, if_pos (show k < 55 by omega)]

/-- Every byte of the padded block has a value. -/
theorem readByte_pad_readable {m : List Byte} (hm : m.length ≤ 55) {k : Nat} (hk : k < 64) :
    ∃ v, readByte (pad m) k = .val v := by
  rw [readByte_pad hm]
  split_ifs <;> exact ⟨_, rfl⟩

/-- Every word of the padded block has a value, so BUILD writes what the rounds read (R47, R140). -/
theorem wordView_pad_readable {m : List Byte} (hm : m.length ≤ 55) (j : BitVec 4) :
    ∃ w, wordView (pad m) j = .val w := by
  have hj : j.toNat < 16 := j.isLt
  have hbytes : ∀ k < 4, readByte (pad m) (4 * j.toNat + k) = .val ((readByte (pad m) (4 * j.toNat + k)).getD 0) := by
    intro k hk
    obtain ⟨v, hv⟩ := readByte_pad_readable hm (show 4 * j.toNat + k < 64 by omega)
    rw [hv, Elem.getD_val]
  exact ⟨_, congrArg (Elem.map (BitVec.ofNat 32)) (memRead_of_readByte hbytes)⟩

/-- After a round the operands are ready for the next round, or for FINAL. -/
theorem operandsReady_advanceRound {s : State} {q r : Quad} {i : RoundIndex} (hp : s.ph = .val .round)
    (hq : WorkIs s q) (ha : AccIs s r) (hblk : ∀ j, ∃ w, wordView s.blk j = .val w) :
    OperandsReady (advanceRound i s).dropSample := by
  unfold advanceRound
  split
  · exact .round hp rfl hq ha hblk
  · exact .final rfl hq ha

/-- A step whose operands are ready completes, and leaves the next operation's operands ready. -/
theorem step_of_operandsReady {s : State} (h : OperandsReady s) : ∃ t, step s = .next t ∧ OperandsReady t := by
  cases hr : s.sample.rst with
  | true => exact ⟨_, step_reset hr, .waiting (.inl rfl)⟩
  | false =>
    cases h with
    | waiting hw =>
      cases hs : s.sample.start with
      | false => exact ⟨_, step_hold hr hw hs, .waiting hw⟩
      | true =>
        rcases Nat.lt_or_ge 55 s.sample.lenIn.toNat with hlong | hlegal
        · exact ⟨_, step_start_illegal hr hw hs hlong, .waiting (.inr (.inr rfl))⟩
        · exact ⟨_, step_start_legal hr hw hs hlegal, .build rfl rfl hlegal (readBytes_latchBytes _ hlegal)⟩
    | build hp hlen hn hm =>
      exact ⟨_, step_build hr hp hlen hn hm, .round rfl rfl ⟨rfl, rfl, rfl, rfl⟩ ⟨rfl, rfl, rfl, rfl⟩
        (wordView_pad_readable (by rw [readBytes_length hm]; exact hn))⟩
    | @round i _ _ hp hi hq ha hblk =>
      obtain ⟨w, hw⟩ := hblk (wordIndex i)
      exact ⟨_, step_round hr hp hi hq hw,
        operandsReady_advanceRound (s := s.setWork _) hp ⟨rfl, rfl, rfl, rfl⟩ ha hblk⟩
    | final hp hq ha => exact ⟨_, step_final hr hp hq ha, .waiting (.inr (.inl rfl))⟩

theorem run_of_operandsReady {s : State} (h : OperandsReady s) (n : Nat) : ∃ t, run n s = .next t := by
  induction n generalizing s with
  | zero => exact ⟨s, rfl⟩
  | succ n ih =>
    obtain ⟨t, ht, hready⟩ := step_of_operandsReady h
    rw [run_succ_of n ht]
    exact ih hready

/-- Settles O57: the first step is RESET, after which the engine waits, and every later step finds its operands ready. -/
theorem runsFromResetReadNoBottom : Obligations.RunsFromResetReadNoBottom := by
  refine ⟨fun e k => need_bot e k, fun s n hr => ?_⟩
  cases n with
  | zero => exact ⟨s, rfl⟩
  | succ n =>
    rw [run_succ_of n (step_reset hr)]
    exact run_of_operandsReady (.waiting (.inl rfl)) n

end Sys2Proof.Machine
end

section
/-! PROOFS. The status outputs of spec/10_state.md R44 as functions of PH and CAUSE. -/

namespace Sys2Proof.Machine

theorem busyPhase_eq (p : Phase) : busyPhase p = decide (p = .build ∨ p = .round ∨ p = .final) := by
  cases p <;> rfl

theorem State.busy_of_ph {s : State} {p : Phase} (hp : s.ph = .val p) :
    s.busy = .val (decide (p = .build ∨ p = .round ∨ p = .final)) := by
  rw [State.busy, hp, Elem.map_val, busyPhase_eq]

theorem State.done_of_ph {s : State} {p : Phase} (hp : s.ph = .val p) : s.done = .val (decide (p = .done)) := by
  rw [State.done, hp, Elem.map_val, beq_eq_decide]

theorem State.err_of_ph {s : State} {p : Phase} (hp : s.ph = .val p) : s.err = .val (decide (p = .err)) := by
  rw [State.err, hp, Elem.map_val, beq_eq_decide]

theorem State.causeOut_of_cause {s : State} {c : Cause} (hc : s.cause = .val c) : s.causeOut = .val (causeCode c) := by
  rw [State.causeOut, hc, Elem.map_val]

/-- Outside DONE there is no digest to read (R127). -/
theorem State.digestOut_of_not_done {s : State} (hp : s.ph ≠ .val .done) : s.digestOut = .bot := by
  unfold State.digestOut
  split
  next hdone => exact absurd hdone hp
  next => rfl

/-- Settles O46: the outputs are functions of PH and CAUSE, and in the reset state PH is IDLE and CAUSE is 00. -/
theorem statusOutputs : Obligations.StatusOutputs := by
  have hreset : State.reset.ph = .val .idle := rfl
  refine ⟨fun s p hp => ⟨State.busy_of_ph hp, State.done_of_ph hp, State.err_of_ph hp, fun hne => ?_⟩,
    fun s => ⟨State.causeOut_of_cause, State.causeOut_of_cause, State.causeOut_of_cause, State.causeOut_of_cause⟩,
    State.busy_of_ph hreset, State.done_of_ph hreset, State.err_of_ph hreset, State.causeOut_of_cause (c := .none) rfl,
    State.digestOut_of_not_done nofun⟩
  exact State.digestOut_of_not_done (by rw [hp]; simpa using hne)

end Sys2Proof.Machine
end

section
/-! PROOFS. The block map of spec/20_memory.md R68 and the rotation table of R65. -/

namespace Sys2Proof.Machine

/-! ## The regions of the padded block (R141) -/

theorem readByte_pad_message {m : List Byte} (hm : m.length ≤ 55) {k : Nat} (hk : k < m.length) :
    readByte (pad m) k = .val (m.getD k 0) := by
  rw [readByte_pad hm, if_pos hk]

theorem readByte_pad_mark {m : List Byte} (hm : m.length ≤ 55) : readByte (pad m) m.length = .val 0x80 := by
  rw [readByte_pad hm, if_neg (Nat.lt_irrefl _), if_pos rfl]

theorem readByte_pad_zero {m : List Byte} (hm : m.length ≤ 55) {k : Nat} (hlow : m.length < k) (hhigh : k < 56) :
    readByte (pad m) k = .val 0x00 := by
  rw [readByte_pad hm, if_neg (by omega), if_neg (by omega), if_pos hhigh]

theorem readByte_pad_lengthField {m : List Byte} (hm : m.length ≤ 55) {k : Nat} (hk : k < 8) :
    readByte (pad m) (56 + k) = .val (byteOfNat (8 * m.length) k) := by
  rw [readByte_pad hm, if_neg (by omega), if_neg (by omega), if_neg (by omega), if_pos (by omega),
    Nat.add_sub_cancel_left]

/-- The length field as a number: a bit length of at most 440 is far below `2^64`, so nothing of it is cut off. -/
theorem memRead_pad_lengthField {m : List Byte} (hm : m.length ≤ 55) :
    memRead (pad m) 56 8 = .val (m.length * 8) := by
  have hfits : 8 * m.length < 2 ^ (8 * 8) := by omega
  rw [memRead_of_readByte fun k hk => readByte_pad_lengthField hm hk, sum_byteOfNat, Nat.mod_eq_of_lt hfits,
    Nat.mul_comm]

/-- The block has 64 bytes (R61). -/
theorem readByte_pad_outside {m : List Byte} (hm : m.length ≤ 55) {k : Nat} (hk : 64 ≤ k) :
    readByte (pad m) k = .bot :=
  readByte_outside (wf_pad hm) hk

/-- Settles O22: BUILD that answers has read MSG[0..LEN-1] and stored the padded block, whose regions are the rows of
the map. -/
theorem blockMapAfterBuild : Obligations.BlockMapAfterBuild := by
  intro s t n hlen h
  obtain ⟨n', m, hlen', hn, hm, rfl⟩ := exec_build_next h
  obtain rfl : n' = n := Elem.val.inj (hlen'.symm.trans hlen)
  have hcount : m.length = n'.toNat := readBytes_length hm
  have hmsg : ∀ k < n'.toNat, readByte s.msg k = .val (m.getD k 0) := by
    simpa using readByte_of_readBytes hm
  rw [← hcount] at hn hmsg ⊢
  exact ⟨fun k hk => (readByte_pad_message hn hk).trans (hmsg k hk).symm, readByte_pad_mark hn,
    fun _ hlow hhigh => readByte_pad_zero hn hlow hhigh, memRead_pad_lengthField hn,
    fun _ hk => readByte_pad_outside hn hk⟩

/-! ## The rotation table -/

/-- The sixteen entries of the four groups lie in 4..23. -/
theorem rotationGroup_range : ∀ q j : BitVec 2, 4 ≤ (rotationGroup q j).toNat ∧ (rotationGroup q j).toNat ≤ 23 := by
  decide

/-- Settles O30: the rows by evaluation, and the range from the groups the entries are taken from. -/
theorem rotationTable : Obligations.RotationTable :=
  ⟨by decide, fun _ => rotationGroup_range _ _⟩

end Sys2Proof.Machine
end

section
/-! PROOFS. The encoding rules of spec/30_encoding.md: the fields of the selector (R91), the row each selector takes
(R92), and the quarters of the round number with their word indices (R95 to R97). -/

namespace Sys2Proof.Machine

open Sys2Proof.Safety

/-! ## The fields of the selector (R91) -/

@[simp] theorem selOf_rst (r st : Bool) (p : Phase) (i : RoundIndex) : (selOf r st p i).getLsbD 10 = r := by
  simp only [selOf, BitVec.getLsbD_append]; simp

@[simp] theorem selOf_start (r st : Bool) (p : Phase) (i : RoundIndex) : (selOf r st p i).getLsbD 9 = st := by
  simp only [selOf, BitVec.getLsbD_append]; simp

@[simp] theorem selOf_ph (r st : Bool) (p : Phase) (i : RoundIndex) :
    (selOf r st p i).extractLsb' 6 3 = phaseCode p := by
  rw [selOf, BitVec.extractLsb'_append_eq_of_le (by omega), BitVec.extractLsb'_append_eq_right]

@[simp] theorem selOf_ri (r st : Bool) (p : Phase) (i : RoundIndex) : (selOf r st p i).extractLsb' 0 6 = i := by
  rw [selOf, BitVec.extractLsb'_append_eq_right]

/-- Where PH and RI hold values, the selector is formed from them and from the ports, with or without a reset. -/
theorem fetch_of_values {s : State} {p : Phase} {i : RoundIndex} (hp : s.ph = .val p) (hi : s.ri = .val i) :
    fetch s = .ok (selOf s.sample.rst s.sample.start p i) := by
  cases hr : s.sample.rst with
  | true => rw [fetch_reset hr, hp, hi]; rfl
  | false => exact fetch_val hr hp hi

/-- Where no row that can match reads RI, a `⊥` RI stands as zero bits (log 7). -/
theorem fetch_of_bottom_ri {s : State} {p : Phase} (hp : s.ph = .val p) (hi : s.ri = .bot)
    (h : p ≠ .round ∨ s.sample.rst = true) : fetch s = .ok (selOf s.sample.rst s.sample.start p 0) := by
  cases hr : s.sample.rst with
  | true => rw [fetch_reset hr, hp, hi]; rfl
  | false =>
    have hn : p ≠ .round := by simpa [hr] using h
    simp [fetch, hr, hp, hi, hn]

/-- RI is don't-care outside PH = ROUND and under a reset. -/
theorem decodeSel_ri_dontCare {r : Bool} (st : Bool) {p : Phase} (h : p ≠ .round ∨ r = true) (i j : RoundIndex) :
    decodeSel (selOf r st p i) = decodeSel (selOf r st p j) := by
  cases r with
  | true => rw [decodeSel_reset, decodeSel_reset]
  | false => exact decodeSel_ignores_ri st (by simpa using h) i j

/-- Settles O5: the selector `fetch` forms, by whether RI holds a value, and the fields it was put together from. -/
theorem selectorIsFormedFromPortsPhaseAndIndex : Obligations.SelectorIsFormedFromPortsPhaseAndIndex :=
  fun _ _ hp =>
    ⟨fun _ hi => ⟨_, fetch_of_values hp hi, selOf_rst .., selOf_start .., selOf_ph .., selOf_ri ..⟩,
      fun hi h => ⟨_, fetch_of_bottom_ri hp hi h, selOf_rst .., selOf_start .., selOf_ph ..,
        fun i => decodeSel_ri_dontCare _ h 0 i⟩⟩

/-! ## The quarters of the round number (R95, R96) -/

theorem quarter_toNat (i : RoundIndex) : (quarter i).toNat = i.toNat / 16 := by
  have hi : i.toNat < 64 := i.isLt
  simp [quarter, Nat.shiftRight_eq_div_pow]
  omega

/-- The operation of a round by the range its number lies in. -/
theorem roundInstr_cases (i : RoundIndex) :
    (i.toNat < 16 ∧ roundInstr i = .roundF i) ∨ (16 ≤ i.toNat ∧ i.toNat < 32 ∧ roundInstr i = .roundG i) ∨
      (32 ≤ i.toNat ∧ i.toNat < 48 ∧ roundInstr i = .roundH i) ∨ (48 ≤ i.toNat ∧ roundInstr i = .roundI i) := by
  have hq := quarter_toNat i
  unfold roundInstr
  split
  next h => exact .inl ⟨by omega, rfl⟩
  next h => exact .inr (.inl ⟨by omega, by omega, rfl⟩)
  next h => exact .inr (.inr (.inl ⟨by omega, by omega, rfl⟩))
  next hF hG hH =>
    rw [imp_false] at hF hG hH
    exact .inr (.inr (.inr ⟨by omega, rfl⟩))

/-! ## The row of every selector (R92) -/

/-- The row of the selector with the given fields: by `rst`, then by PH, then by RI or `start`. -/
theorem decodeSel_selOf (r st : Bool) (p : Phase) (i : RoundIndex) :
    decodeSel (selOf r st p i) =
      if r then .reset
      else match p with
        | .reserved6 | .reserved7 => .phReserved
        | .build => .build
        | .round => roundInstr i
        | .final => .final
        | .idle | .done | .err => if st then .start else .hold := by
  cases r with
  | true => exact decodeSel_reset st p i
  | false =>
    cases p with
    | idle => exact decodeSel_waiting st .idle (.inl rfl) i
    | build => exact decodeSel_build st i
    | round => exact decodeSel_round st i
    | final => exact decodeSel_final st i
    | done => exact decodeSel_waiting st .done (.inr (.inl rfl)) i
    | err => exact decodeSel_waiting st .err (.inr (.inr rfl)) i
    | reserved6 => exact decodeSel_reserved st .reserved6 (.inl rfl) i
    | reserved7 => exact decodeSel_reserved st .reserved7 (.inr rfl) i

/-- Settles O3: every selector is its fields put together, so `rst`, PH and, in ROUND, the quarter of RI decide the
row. -/
theorem everySelectorFallsToOneRow : Obligations.EverySelectorFallsToOneRow := by
  intro w
  obtain ⟨r, st, p, i, rfl⟩ : ∃ r st p i, w = selOf r st p i := ⟨_, _, _, _, (selOf_fields w).symm⟩
  simp only [selOf_rst, selOf_start, selOf_ph, selOf_ri, decodeSel_selOf]
  cases r with
  | true => simp
  | false =>
    cases p with
    | idle | done | err => cases st <;> simp [phaseCode]
    | build | final | reserved6 | reserved7 => simp [phaseCode]
    | round =>
      rcases roundInstr_cases i with ⟨_, h⟩ | ⟨_, _, h⟩ | ⟨_, _, h⟩ | ⟨_, h⟩ <;> simp [phaseCode, h] <;> omega

/-! ## The word index (R97) -/

theorem wordIndex_first {i : RoundIndex} (h : i.toNat < 16) : (wordIndex i).toNat = i.toNat := by
  have hq : (quarter i).toNat = 0 := by rw [quarter_toNat]; omega
  simp [wordIndex, hq, wordIndexF, h]

theorem wordIndex_second {i : RoundIndex} (hlow : 16 ≤ i.toNat) (hhigh : i.toNat < 32) :
    (wordIndex i).toNat = (5 * i.toNat + 1) % 16 := by
  have hq : (quarter i).toNat = 1 := by rw [quarter_toNat]; omega
  simp [wordIndex, hq, wordIndexG]

theorem wordIndex_third {i : RoundIndex} (hlow : 32 ≤ i.toNat) (hhigh : i.toNat < 48) :
    (wordIndex i).toNat = (3 * i.toNat + 5) % 16 := by
  have hq : (quarter i).toNat = 2 := by rw [quarter_toNat]; omega
  simp [wordIndex, hq, wordIndexH]

theorem wordIndex_fourth {i : RoundIndex} (hlow : 48 ≤ i.toNat) : (wordIndex i).toNat = 7 * i.toNat % 16 := by
  have hi : i.toNat < 64 := i.isLt
  have hq : (quarter i).toNat = 3 := by rw [quarter_toNat]; omega
  simp [wordIndex, hq, wordIndexI]

/-- In each quarter the index is an affine function of the round number mod 16, of odd slope. -/
theorem wordIndex_affine (q : BitVec 2) :
    ∃ a b, Nat.Coprime 16 a ∧ ∀ i, quarter i = q → (wordIndex i).toNat = (a * i.toNat + b) % 16 := by
  have hrange {i : RoundIndex} (h : quarter i = q) : i.toNat / 16 = q.toNat := by rw [← h, quarter_toNat]
  have hq : q.toNat < 4 := q.isLt
  obtain h | h | h | h : q.toNat = 0 ∨ q.toNat = 1 ∨ q.toNat = 2 ∨ q.toNat = 3 := by omega
  · refine ⟨1, 0, by decide, fun i hi => ?_⟩
    have hdiv := hrange hi
    rw [wordIndex_first (by omega), Nat.mod_eq_of_lt] <;> omega
  · refine ⟨5, 1, by decide, fun i hi => ?_⟩
    have hdiv := hrange hi
    exact wordIndex_second (by omega) (by omega)
  · refine ⟨3, 5, by decide, fun i hi => ?_⟩
    have hdiv := hrange hi
    exact wordIndex_third (by omega) (by omega)
  · refine ⟨7, 0, by decide, fun i hi => ?_⟩
    have hdiv := hrange hi
    exact wordIndex_fourth (by omega)

/-- An odd slope is invertible mod 16, so within a quarter no word index is taken twice. -/
theorem quarter_wordIndex_injective : Function.Injective fun i => (quarter i, wordIndex i) := by
  intro i j hij
  obtain ⟨hq, hg⟩ := Prod.mk.inj hij
  obtain ⟨a, b, hodd, haffine⟩ := wordIndex_affine (quarter j)
  have hsame : (a * i.toNat + b) % 16 = (a * j.toNat + b) % 16 := by rw [← haffine i hq, ← haffine j rfl, hg]
  have hlow : i.toNat % 16 = j.toNat % 16 := (Nat.ModEq.add_right_cancel' b hsame).cancel_left_of_coprime hodd
  have hhigh : i.toNat / 16 = j.toNat / 16 := by rw [← quarter_toNat, ← quarter_toNat, hq]
  exact BitVec.eq_of_toNat_eq (by omega)

/-- Settles O32: the four formulas; and 64 rounds, no two of which agree in quarter and word index, take all 64 pairs of
them. -/
theorem wordIndexSchedule : Obligations.WordIndexSchedule := by
  refine ⟨fun _ => ⟨wordIndex_first, wordIndex_second, wordIndex_third, wordIndex_fourth⟩, fun q g => ?_⟩
  have hbijective : Function.Bijective fun i => (quarter i, wordIndex i) :=
    (Fintype.bijective_iff_injective_and_card _).2 ⟨quarter_wordIndex_injective, rfl⟩
  obtain ⟨i, hi⟩ := hbijective.surjective (q, g)
  obtain ⟨hq, hg⟩ := Prod.mk.inj hi
  exact ⟨i, hq, hg, fun j hjq hjg => quarter_wordIndex_injective ((Prod.ext hjq hjg).trans hi.symm)⟩

end Sys2Proof.Machine
end

section
/-! PROOFS. The reserved phase codes of spec/30_encoding.md R94: a state that holds one faults, and none is ever
written. -/

namespace Sys2Proof.Machine

open Sys2Proof.Safety

/-- A property that every step keeps holds after a run, if it holds before it. -/
theorem run_keeps {P : State → Prop} (hstep : ∀ s t, P s → step s = .next t → P t) {n : Nat} {s t : State} (hs : P s)
    (h : run n s = .next t) : P t := by
  induction n generalizing s with
  | zero => cases h; exact hs
  | succ n ih =>
    rw [run] at h
    split at h
    next u hu => exact ih (hstep s u hs hu) h
    all_goals cases h

/-- A step whose selector decodes to an operation that faults is that fault. -/
theorem step_fault_of_selects {s : State} {i : Instr} {f : Fault} (hd : ∃ w, fetch s = .ok w ∧ decodeSel w = i)
    (he : exec i s = .fault f) : step s = .fault f := by
  obtain ⟨w, hf, rfl⟩ := hd
  simp only [step, hf, he]

theorem selects_phReserved {s : State} (hp : s.ph = .val .reserved6 ∨ s.ph = .val .reserved7)
    (hr : s.sample.rst = false) : ∃ w, fetch s = .ok w ∧ decodeSel w = .phReserved := by
  rcases hp with hp | hp
  · exact selects_of_phase hr hp nofun (decodeSel_reserved _ _ (.inl rfl))
  · exact selects_of_phase hr hp nofun (decodeSel_reserved _ _ (.inr rfl))

/-- Every phase code that a step leaves in PH is one of the six of R93. -/
theorem step_ph_unreserved {s t : State} (h : step s = .next t) :
    t.ph ≠ .val .reserved6 ∧ t.ph ≠ .val .reserved7 := by
  rcases step_cases h with ⟨-, rfl⟩ | ⟨-, hold | start | reject | build | round | final⟩
  · exact ⟨nofun, nofun⟩
  · obtain ⟨hp | hp | hp, -, rfl⟩ := hold <;> simp [hp]
  · obtain ⟨-, -, -, rfl⟩ := start; simp
  · obtain ⟨-, -, -, rfl⟩ := reject; simp
  · obtain ⟨-, _, _, -, -, -, rfl⟩ := build; simp
  · obtain ⟨hp, i, _, _, -, -, -, rfl⟩ := round
    rw [State.dropSample_ph, advanceRound_ph, State.setWork_ph, hp]
    split <;> exact ⟨nofun, nofun⟩
  · obtain ⟨-, _, _, -, -, rfl⟩ := final; simp

/-- Settles O50: no step writes a reserved code, so no run from reset meets one, and a state that was given one selects
PH_RESERVED. -/
theorem reservedPhasesFaultAndAreNeverWritten : Obligations.ReservedPhasesFaultAndAreNeverWritten := by
  refine ⟨fun s t h => step_ph_unreserved h, fun l n t h => ?run, fun s => ⟨rfl, fun hp hr => ?fault⟩⟩
  case run =>
    exact run_keeps (P := fun s => s.ph ≠ .val .reserved6 ∧ s.ph ≠ .val .reserved7)
      (fun _ _ _ hstep => step_ph_unreserved hstep) (by simp [State.reset]) h
  case fault =>
    have hselects := selects_phReserved hp hr
    exact ⟨hselects, step_fault_of_selects hselects rfl⟩

end Sys2Proof.Machine
end

section
/-! PROOFS. The words of the padded block: what the word view reads of `pad` is the source's `Words(Pad(m, n))`
(spec/20_memory.md R68, spec/42_word_loader.md R150). -/

namespace Sys2Proof.Machine

open Sys2Proof.Safety

theorem toNat_append_byte {w : Nat} (x : BitVec w) (v : Byte) : (x ++ v).toNat = x.toNat * 2 ^ 8 + v.toNat := by
  rw [BitVec.toNat_append, ← Nat.shiftLeft_add_eq_or_of_lt v.isLt, Nat.shiftLeft_eq]

/-- Four bytes read as one number are the number of the bytes side by side, the first the least significant. -/
theorem memRead_four {m : Memory} {addr : Nat} {f : Nat → Byte} (h : ∀ k < 4, readByte m (addr + k) = .val (f k)) :
    memRead m addr 4 = .val (f 3 ++ f 2 ++ f 1 ++ f 0).toNat := by
  have hsum : memRead m addr 4 =
      .val (0 + (f 0).toNat * 2 ^ (8 * 0) + (f 1).toNat * 2 ^ (8 * 1) + (f 2).toNat * 2 ^ (8 * 2) +
        (f 3).toNat * 2 ^ (8 * 3)) := by
    simp only [memRead, h 0 (by omega), h 1 (by omega), h 2 (by omega), h 3 (by omega), Elem.map2_val]
  rw [hsum, toNat_append_byte, toNat_append_byte, toNat_append_byte]
  congr 1
  omega

theorem wordView_of_readByte {blk : Memory} {j : BitVec 4} {f : Nat → Byte}
    (h : ∀ k < 4, readByte blk (4 * j.toNat + k) = .val (f k)) :
    wordView blk j = .val (f 3 ++ f 2 ++ f 1 ++ f 0) := by
  rw [wordView, memRead_four h, Elem.map_val, BitVec.ofNat_toNat, BitVec.setWidth_eq]

/-- Byte `k` of a number that fits a bit vector, cut out of the bit vector. -/
theorem extractLsb'_ofNat_eq_byteOfNat {w v : Nat} (h : v < 2 ^ w) (k : Nat) :
    (BitVec.ofNat w v).extractLsb' (8 * k) 8 = byteOfNat v k := by
  apply BitVec.eq_of_toNat_eq
  simp [byteOfNat, Nat.shiftRight_eq_div_pow, Nat.mod_eq_of_lt h]

/-- The block the machine pads is the block of R68's map. -/
theorem readByte_pad_eq_blockByte {m : List Byte} (hm : m.length ≤ 55) {k : Nat} (hk : k < 64) :
    readByte (pad m) k = .val (blockByte m k) := by
  rw [readByte_pad hm, blockByte, extractLsb'_ofNat_eq_byteOfNat (by omega), if_pos hk]
  split_ifs <;> rfl

theorem wordView_pad {m : List Byte} (hm : m.length ≤ 55) (j : BitVec 4) :
    wordView (pad m) j = .val (blockWord m j) := by
  have hj : j.toNat < 16 := j.isLt
  exact wordView_of_readByte (f := fun k => blockByte m (4 * j.toNat + k)) fun k hk =>
    readByte_pad_eq_blockByte hm (by omega)

end Sys2Proof.Machine
end

section
/-! PROOFS. The course of one request: how many steps it is from DONE, and what the registers hold on the way
(spec/43_compression_rounds.md R170, R173; spec/44_digest_assembler.md R195; spec/70_reset_and_hazards.md R240). -/

namespace Sys2Proof.Machine

open Sys2Proof.Safety

/-- The request for message `m` is `k` steps before DONE: the phases of `Tracks` from BUILD on, with the message named
and the steps counted. -/
inductive Computing (m : List Byte) (k : Nat) (s : State) : Prop where
  /-- BUILD, 64 rounds and FINAL are to come. -/
  | build (hk : k = 66) (hp : s.ph = .val .build) (hm : Latched s m)
  /-- The rounds from `i` on and FINAL are to come. -/
  | round {i : RoundIndex} (hk : i.toNat + k = 65) (hp : s.ph = .val .round) (hm : Latched s m) (hblk : s.blk = pad m)
      (hi : s.ri = .val i) (ha : AccIs s ivQuad) (hq : WorkIs s (compressRounds (blockWord m) i.toNat))
  /-- FINAL is to come. -/
  | final (hk : k = 1) (hp : s.ph = .val .final) (hm : Latched s m) (hblk : s.blk = pad m) (hi : s.ri = .val 63)
      (ha : AccIs s ivQuad) (hq : WorkIs s (compress (blockWord m)))
  /-- The digest is there. -/
  | done (hk : k = 0) (hp : s.ph = .val .done) (hm : Latched s m)
      (ha : AccIs s (ivQuad.add (compress (blockWord m))))

/-- What is on the ports is no part of how far the request has come. -/
theorem Computing.withInputs {m : List Byte} {k : Nat} {s : State} (h : Computing m k s) (l : List Ports) :
    Computing m k { s with inputs := l } := by
  cases h with
  | build hk hp hm => exact .build hk hp hm
  | round hk hp hm hblk hi ha hq => exact .round hk hp hm hblk hi ha hq
  | final hk hp hm hblk hi ha hq => exact .final hk hp hm hblk hi ha hq
  | done hk hp hm ha => exact .done hk hp hm ha

/-! ## The steps of a request -/

/-- A round continues the compression: rounds 0 to `i` from rounds 0 to `i - 1` (R173). -/
theorem compressRounds_succ (w : BitVec 4 → Word) (i : RoundIndex) :
    compressRounds w (i.toNat + 1) =
      roundUpdate (roundFunction i) i (w (wordIndex i)) (compressRounds w i.toNat) := by
  rw [compressRounds, BitVec.ofNat_toNat, BitVec.setWidth_eq]

/-- BUILD makes the block of the latched message and loads the initial values (R140). -/
theorem step_build_of_latched {s : State} {m : List Byte} (hr : s.sample.rst = false) (hp : s.ph = .val .build)
    (hm : Latched s m) : step s = .next (builtState s m).dropSample := by
  obtain ⟨hlegal, hlen, hread⟩ := hm
  rw [Config.maxLen] at hlegal
  have hn : (BitVec.ofNat 6 m.length).toNat = m.length := by
    rw [BitVec.toNat_ofNat, Nat.mod_eq_of_lt (by omega)]
  exact step_build hr hp hlen (by rwa [hn]) (by rwa [hn])

theorem computing_of_round {s : State} {m : List Byte} {k : Nat} {i : RoundIndex} (hk : i.toNat + (k + 1) = 65)
    (hp : s.ph = .val .round) (hm : Latched s m) (hblk : s.blk = pad m) (hi : s.ri = .val i) (ha : AccIs s ivQuad)
    (hq : WorkIs s (compressRounds (blockWord m) (i.toNat + 1))) : Computing m k (advanceRound i s).dropSample := by
  have hbound : i.toNat < 64 := i.isLt
  unfold advanceRound
  split
  next hlt =>
    rw [lt_63_iff] at hlt
    have hnext : (i + 1).toNat = i.toNat + 1 := by
      rw [BitVec.toNat_add, Nat.mod_eq_of_lt (by simp; omega)]
      rfl
    exact .round (by omega) hp hm hblk rfl ha (by rwa [hnext])
  next hlast =>
    rw [lt_63_iff] at hlast
    obtain rfl : i = 63 := BitVec.eq_of_toNat_eq (show i.toNat = 63 by omega)
    exact .final (by omega) rfl hm hblk hi ha hq

/-- Without a reset each step of a request brings it one step nearer to DONE, whatever else is on the ports. -/
theorem step_of_computing {m : List Byte} {k : Nat} {s : State} (hr : s.sample.rst = false)
    (h : Computing m (k + 1) s) : ∃ t, step s = .next t ∧ Computing m k t := by
  cases h with
  | build hk hp hm =>
    exact ⟨_, step_build_of_latched hr hp hm,
      .round (i := 0) (by simp; omega) rfl hm rfl rfl ⟨rfl, rfl, rfl, rfl⟩ ⟨rfl, rfl, rfl, rfl⟩⟩
  | @round i hk hp hm hblk hi ha hq =>
    have hlegal : m.length ≤ 55 := hm.1
    have hword : wordView s.blk (wordIndex i) = .val (blockWord m (wordIndex i)) := by rw [hblk, wordView_pad hlegal]
    refine ⟨_, step_round hr hp hi hq hword, computing_of_round hk hp hm hblk hi ha ?_⟩
    rw [compressRounds_succ]
    exact ⟨rfl, rfl, rfl, rfl⟩
  | final hk hp hm _ _ ha hq =>
    exact ⟨_, step_final hr hp hq ha, .done (by omega) rfl hm ⟨rfl, rfl, rfl, rfl⟩⟩
  | done hk => omega

/-- The step of START with a legal length: the request for the message on the ports is 66 steps before DONE. -/
theorem computing_of_start {s : State} (hr : s.sample.rst = false) (hw : Waiting s) (hs : s.sample.start = true)
    (hl : s.sample.lenIn.toNat ≤ 55) : ∃ t, step s = .next t ∧ Computing (requestMessage s.sample) 66 t := by
  have hcount : (requestMessage s.sample).length = s.sample.lenIn.toNat := by simp [requestMessage]
  refine ⟨_, step_start_legal hr hw hs hl, .build rfl rfl ⟨by rwa [hcount], ?len, ?msg⟩⟩
  case len => rw [hcount, BitVec.ofNat_toNat, BitVec.setWidth_eq]; rfl
  case msg => rw [hcount]; exact readBytes_latchBytes _ hl

/-! ## The outputs of a request -/

/-- No step before DONE is DONE: there the accumulators hold the digest. -/
theorem Computing.atDone {m : List Byte} {s : State} (h : Computing m 0 s) :
    s.ph = .val .done ∧ AccIs s (ivQuad.add (compress (blockWord m))) := by
  cases h with
  | build hk => cases hk
  | @round i hk => have hbound : i.toNat < 64 := i.isLt; omega
  | final hk => cases hk
  | done _ hp _ ha => exact ⟨hp, ha⟩

theorem Computing.busy {m : List Byte} {k : Nat} {s : State} (h : Computing m (k + 1) s) : s.busy = .val true := by
  cases h with
  | build _ hp => exact State.busy_of_ph hp
  | round _ hp => exact State.busy_of_ph hp
  | final _ hp => exact State.busy_of_ph hp
  | done hk => cases hk

theorem State.digestOut_of_done {s : State} {q : Quad} (hp : s.ph = .val .done) (ha : AccIs s q) :
    s.digestOut = .val (serialise q) := by
  obtain ⟨ha, hb, hc, hd⟩ := ha
  simp [State.digestOut, hp, State.accumulators, ha, hb, hc, hd]

theorem Computing.digestOut {m : List Byte} {s : State} (h : Computing m 0 s) : s.digestOut = .val (md5One m) :=
  State.digestOut_of_done h.atDone.1 h.atDone.2

/-- A state that tracks its request waits, or computes and is at most 66 steps before DONE. -/
theorem waiting_or_computing_of_tracks {s : State} (h : Tracks s) :
    Waiting s ∨ ∃ m k, k ≤ 66 ∧ Computing m k s := by
  unfold Tracks at h
  split at h
  next hp => exact .inl (.inl hp)
  next hp =>
    obtain ⟨m, hm⟩ := h
    exact .inr ⟨m, 66, le_refl _, .build rfl hp hm⟩
  next hp =>
    obtain ⟨m, i, hm, hblk, hi, ha, hq⟩ := h
    have hbound : i.toNat < 64 := i.isLt
    exact .inr ⟨m, 65 - i.toNat, by omega, .round (by omega) hp hm hblk hi ha hq⟩
  next hp =>
    obtain ⟨m, hm, hblk, hi, ha, hq⟩ := h
    exact .inr ⟨m, 1, by omega, .final rfl hp hm hblk hi ha hq⟩
  next hp => exact .inl (.inr (.inl hp))
  next hp => exact .inl (.inr (.inr hp))
  all_goals exact h.elim

end Sys2Proof.Machine
end

section
/-! PROOFS. The host's pseudo-operations of spec/30_encoding.md R108. -/

namespace Sys2Proof.Machine

open Sys2Proof.Safety

/-! ## A text on the ports (R100) -/

theorem messageLanes_cons (v : Byte) {text : List Byte} (h : text.length < 55) :
    messageLanes (v :: text) = (messageLanes text <<< 8) ||| v.setWidth 440 := by
  have hlen : text.length ≤ 54 := by omega
  simp [messageLanes, Config.maxLen, List.take_of_length_le, hlen, Nat.le_of_lt h]

theorem lane_push_zero (acc : MsgLanes) (v : Byte) : lane ((acc <<< 8) ||| v.setWidth 440) 0 = v := by
  refine BitVec.eq_of_getLsbD_eq fun b hb => ?_
  have hport : b < 440 := by omega
  simp [lane, hb, hport]

theorem lane_push_succ (acc : MsgLanes) (v : Byte) {k : Nat} (hk : k + 1 < 55) :
    lane ((acc <<< 8) ||| v.setWidth 440) (k + 1) = lane acc k := by
  refine BitVec.eq_of_getLsbD_eq fun b hb => ?_
  have hport : 8 * (k + 1) + b < 440 := by omega
  have hhigh : ¬ 8 * (k + 1) + b < 8 := by omega
  have hsub : 8 * (k + 1) + b - 8 = 8 * k + b := by omega
  have hv : v.getLsbD (8 * (k + 1) + b) = false := BitVec.getLsbD_of_ge _ _ (by omega)
  have hlow : 8 * k + b < 440 := by omega
  simp [lane, hb, hport, hhigh, hsub, hlow, hv]

/-- Lane `k` of a text on the port is its byte `k`. -/
theorem lane_messageLanes {text : List Byte} (h : text.length ≤ 55) {k : Nat} (hk : k < text.length) :
    lane (messageLanes text) k = text[k] := by
  induction text generalizing k with
  | nil => simp at hk
  | cons v text ih =>
    rw [List.length_cons] at h hk
    rw [messageLanes_cons v (by omega)]
    cases k with
    | zero => exact lane_push_zero _ v
    | succ k =>
      rw [lane_push_succ _ v (by omega), ih (by omega) (by omega)]
      rfl

/-- `START "text"` presents a request for the text. -/
theorem textRequest_of_legal {text : List Byte} (h : text.length ≤ 55) :
    ∃ p, textRequest text = some p ∧ p.rst = false ∧ p.start = true ∧ p.lenIn.toNat ≤ 55 ∧
      requestMessage p = text := by
  have hn : (Ports.request (BitVec.ofNat 6 text.length) (messageLanes text)).lenIn.toNat = text.length := by
    rw [Ports.request, BitVec.toNat_ofNat, Nat.mod_eq_of_lt (by omega)]
  refine ⟨_, if_pos (by omega), rfl, rfl, by rwa [hn],
    List.ext_getElem (by simp [requestMessage, hn]) fun k _ hk => ?_⟩
  simp [requestMessage, Ports.request, lane_messageLanes h hk]

/-! ## One driven step -/

theorem driveStep_of_step {p : Ports} {s t : State} (h : step { s with inputs := [p] } = .next t) :
    driveStep p s = .ran t := by
  simp only [driveStep, h]

theorem driveStep_quiet_of_computing {m : List Byte} {k : Nat} {s : State} (h : Computing m (k + 1) s) :
    ∃ t, driveStep Ports.quiet s = .ran t ∧ Computing m k t := by
  obtain ⟨t, ht, hcomputing⟩ := step_of_computing (s := { s with inputs := [Ports.quiet] }) rfl (h.withInputs _)
  exact ⟨t, driveStep_of_step ht, hcomputing⟩

theorem startText_of_waiting {s : State} {text : List Byte} (hw : Waiting s) (h : text.length ≤ 55) :
    ∃ t, startText text s = .ran t ∧ Computing text 66 t := by
  obtain ⟨p, hp, hr, hs, hl, hm⟩ := textRequest_of_legal h
  obtain ⟨t, ht, hcomputing⟩ := computing_of_start (s := { s with inputs := [p] }) hr hw hs hl
  refine ⟨t, ?_, hm ▸ hcomputing⟩
  rw [startText, hp]
  exact driveStep_of_step ht

/-! ## STEP n -/

@[simp] theorem quietSteps_zero (s : State) : quietSteps 0 s = .ran s := rfl

theorem quietSteps_succ_of {s t : State} (n : Nat) (h : driveStep Ports.quiet s = .ran t) :
    quietSteps (n + 1) s = quietSteps n t := by
  simp only [quietSteps, h]

theorem quietSteps_one (s : State) : quietSteps 1 s = driveStep Ports.quiet s := by
  simp only [quietSteps]
  cases driveStep Ports.quiet s <;> rfl

theorem quietSteps_eq_runProgram (n : Nat) (s : State) :
    quietSteps n s = runProgram (List.replicate n (.steps 1)) s := by
  induction n generalizing s with
  | zero => rfl
  | succ n ih =>
    rw [List.replicate_succ, runProgram, runLine, quietSteps_one, quietSteps]
    cases driveStep Ports.quiet s with
    | ran t => exact ih t
    | _ => rfl

theorem quietSteps_of_computing {m : List Byte} {k : Nat} {s : State} (h : Computing m k s) :
    ∃ t, quietSteps k s = .ran t ∧ Computing m 0 t := by
  induction k generalizing s with
  | zero => exact ⟨s, rfl, h⟩
  | succ k ih =>
    obtain ⟨t, ht, hnext⟩ := driveStep_quiet_of_computing h
    rw [quietSteps_succ_of k ht]
    exact ih hnext

/-! ## HASH -/

theorem runProgram_singleton (l : HostLine) (s : State) : runProgram [l] s = runLine l s := by
  simp only [runProgram]
  cases runLine l s <;> rfl

theorem runLine_hash (text : List Byte) (s : State) :
    runLine (.hash text) s = runProgram [.startText text, .steps 66] s := by
  rw [runProgram]
  simp only [runProgram_singleton]
  rfl

theorem runLine_hash_of_waiting {s : State} {text : List Byte} (hw : Waiting s) (h : text.length ≤ 55) :
    ∃ t, runLine (.hash text) s = .ran t ∧ Computing text 0 t := by
  obtain ⟨t, ht, hcomputing⟩ := startText_of_waiting hw h
  simp only [runLine, ht]
  exact quietSteps_of_computing hcomputing

/-! ## WAIT -/

theorem waitSteps_of_not_busy {s : State} (fuel : Nat) (h : s.busy = .val false) : waitSteps fuel s = .ran s := by
  unfold waitSteps
  simp only [h, readOutput]

theorem waitSteps_of_busy {s t : State} (fuel : Nat) (h : s.busy = .val true)
    (ht : driveStep Ports.quiet s = .ran t) : waitSteps (fuel + 1) s = waitSteps fuel t := by
  simp only [waitSteps, h, readOutput, ht]

theorem State.busy_of_waiting {s : State} (h : Waiting s) : s.busy = .val false := by
  rcases h with hp | hp | hp <;> exact State.busy_of_ph hp

theorem waitSteps_of_computing {m : List Byte} {k fuel : Nat} {s : State} (hk : k ≤ fuel) (h : Computing m k s) :
    ∃ t, waitSteps fuel s = .ran t ∧ t.busy = .val false := by
  induction k generalizing fuel s with
  | zero =>
    have hidle : s.busy = .val false := State.busy_of_ph h.atDone.1
    exact ⟨s, waitSteps_of_not_busy fuel hidle, hidle⟩
  | succ k ih =>
    obtain ⟨fuel, rfl⟩ : ∃ f, fuel = f + 1 := ⟨fuel - 1, by omega⟩
    obtain ⟨t, ht, hnext⟩ := driveStep_quiet_of_computing h
    rw [waitSteps_of_busy fuel h.busy ht]
    exact ih (by omega) hnext

theorem runLine_wait_of_tracks {s : State} (h : Tracks s) : ∃ t, runLine .wait s = .ran t ∧ t.busy = .val false := by
  rcases waiting_or_computing_of_tracks h with hw | ⟨m, k, hk, hcomputing⟩
  · exact ⟨s, waitSteps_of_not_busy 66 (State.busy_of_waiting hw), State.busy_of_waiting hw⟩
  · exact waitSteps_of_computing hk hcomputing

/-- Settles O59: the expansions by unfolding the lines, and their ends by counting down the steps of the request. -/
theorem pseudoOperationsExpand : Obligations.PseudoOperationsExpand := by
  refine ⟨quietSteps_eq_runProgram, fun s text => runLine_hash text s, fun s text hw h => ?_,
    fun s h => runLine_wait_of_tracks h⟩
  obtain ⟨t, ht, hdone⟩ := runLine_hash_of_waiting hw h
  exact ⟨t, ht, State.done_of_ph hdone.atDone.1, hdone.digestOut⟩

end Sys2Proof.Machine
end

section
/-! PROOFS. The host interface of spec/40_interface.md: HOLD (R120), START (R121), the START that comes while busy (R122)
and the read of the digest (R127). -/

namespace Sys2Proof.Machine

open Sys2Proof.Safety

/-! ## The digest (R127) -/

theorem readDigest_of_bottom {s : State} (h : s.digestOut = .bot) : readDigest s = .error (.readBottom .digestOut) := by
  rw [readDigest, h, readOutput]

theorem readDigest_of_value {s : State} {v : Digest} (h : s.digestOut = .val v) : readDigest s = .ok v := by
  rw [readDigest, h, readOutput]

/-- Settles O44: what the host's read answers, from the value of digest_out outside DONE and in it. -/
theorem digestIsBottomOutsideDone : Obligations.DigestIsBottomOutsideDone := by
  refine fun s => ⟨fun hp => ?outside, fun q hp ha => readDigest_of_value (State.digestOut_of_done hp ha)⟩
  have hbot := State.digestOut_of_not_done hp
  exact ⟨hbot, readDigest_of_bottom hbot⟩

/-! ## The phases that select HOLD and START (R120, R121) -/

/-- A selector that was formed without a reset holds the phase code of PH (R91). -/
theorem fetch_ok {s : State} {w : Sel} (hr : s.sample.rst = false) (hf : fetch s = .ok w) :
    ∃ p i, s.ph = .val p ∧ w = selOf false s.sample.start p i := by
  cases hp : s.ph with
  | bot => cases (fetch_beforeReset hr hp).symm.trans hf
  | val p =>
    by_cases hn : p = .round
    · cases hi : s.ri with
      | val i => cases (fetch_val hr hp hi).symm.trans hf; exact ⟨p, i, rfl, rfl⟩
      | bot => simp [fetch, hr, hp, hi, hn] at hf
    · obtain ⟨i, hf'⟩ := fetch_outsideRound hr hp hn
      cases hf'.symm.trans hf
      exact ⟨p, i, rfl, rfl⟩

/-- A round operation is neither START nor HOLD. -/
theorem roundInstr_ne_start_and_ne_hold (i : RoundIndex) : roundInstr i ≠ .start ∧ roundInstr i ≠ .hold := by
  rcases roundInstr_cases i with ⟨-, h⟩ | ⟨-, -, h⟩ | ⟨-, -, h⟩ | ⟨-, h⟩ <;> rw [h] <;> exact ⟨nofun, nofun⟩

/-- START and HOLD are selected in IDLE, DONE and ERR only. -/
theorem waiting_of_selects {s : State} {w : Sel} (hf : fetch s = .ok w)
    (hd : decodeSel w = .start ∨ decodeSel w = .hold) : Waiting s := by
  cases hr : s.sample.rst with
  | true =>
    cases (fetch_reset hr).symm.trans hf
    simp [decodeSel_reset] at hd
  | false =>
    obtain ⟨p, i, hp, rfl⟩ := fetch_ok hr hf
    cases p with
    | idle => exact .inl hp
    | done => exact .inr (.inl hp)
    | err => exact .inr (.inr hp)
    | build => simp [decodeSel_build] at hd
    | round => simp [decodeSel_round, roundInstr_ne_start_and_ne_hold] at hd
    | final => simp [decodeSel_final] at hd
    | reserved6 => simp [decodeSel_reserved] at hd
    | reserved7 => simp [decodeSel_reserved] at hd

/-- Settles O12: the operation is the identity, so its step uses up the sample and does nothing else. -/
theorem holdChangesNothing : Obligations.HoldChangesNothing :=
  fun _ => ⟨rfl, fun hw hr hs => step_hold hr hw hs, fun _ hf hd => waiting_of_selects hf (.inr hd)⟩

/-- Of the latched request, byte `k` of MSG is lane `k` of the port (R121). -/
theorem readByte_latchBytes_lane (v : MsgLanes) {k : Nat} (hk : k < 55) :
    readByte (latchBytes v) k = .val (v.extractLsb' (8 * k) 8) := by
  rw [readByte_latchBytes, if_pos hk, lane]

/-- Settles O13: the state START leaves, by the length on the port, and the outputs as functions of its PH and CAUSE. -/
theorem startLatchesAndChecksTheLength : Obligations.StartLatchesAndChecksTheLength := by
  refine fun s => ⟨fun w hf hd => waiting_of_selects hf (.inl hd), ?_⟩
  rcases Nat.lt_or_ge 55 s.sample.lenIn.toNat with hlong | hlegal
  case inl =>
    exact ⟨_, exec_start_illegal hlong, fun k hk => readByte_latchBytes_lane _ hk, rfl, rfl, rfl, rfl, rfl,
      fun hlegal => absurd hlong (Nat.not_lt.2 hlegal),
      fun _ => ⟨rfl, rfl, State.busy_of_ph (p := .err) rfl, State.done_of_ph (p := .err) rfl,
        State.err_of_ph (p := .err) rfl, State.causeOut_of_cause (c := .inputTooLong) rfl⟩⟩
  case inr =>
    exact ⟨_, exec_start_legal hlegal, fun k hk => readByte_latchBytes_lane _ hk, rfl, rfl, rfl, rfl, rfl,
      fun _ => ⟨rfl, rfl, State.busy_of_ph (p := .build) rfl, State.done_of_ph (p := .build) rfl,
        State.err_of_ph (p := .build) rfl, State.causeOut_of_cause (c := .none) rfl, State.digestOut_of_not_done nofun⟩,
      fun hlong => absurd hlong (Nat.not_lt.2 hlegal)⟩

/-! ## Only START reads the ports (R105, R122) -/

/-- The same engine, with these input samples announced. -/
def State.withInputs (l : List Ports) (s : State) : State := { s with inputs := l }

/-- An outcome with its next state, if it has one, changed by `f`. -/
def mapNext (f : State → State) : Result → Result
  | .next t => .next (f t)
  | .fault r => .fault r
  | .refused r => .refused r

@[simp] theorem mapNext_next (f : State → State) (t : State) : mapNext f (.next t) = .next (f t) := rfl

theorem mapNext_mapNext (f g : State → State) (r : Result) : mapNext f (mapNext g r) = mapNext (fun t => f (g t)) r := by
  cases r <;> rfl

theorem mapNext_need {α : Type} (f : State → State) (e : Element) (x : Elem α) (k : α → Result) :
    mapNext f (need e x k) = need e x fun v => mapNext f (k v) := by
  cases x <;> rfl

theorem mapNext_needWork (f : State → State) (s : State) (k : Quad → Result) :
    mapNext f (needWork s k) = needWork s fun q => mapNext f (k q) := by
  simp only [needWork, mapNext_need]

theorem mapNext_needAcc (f : State → State) (s : State) (k : Quad → Result) :
    mapNext f (needAcc s k) = needAcc s fun q => mapNext f (k q) := by
  simp only [needAcc, mapNext_need]

theorem advanceRound_withInputs (i : RoundIndex) (l : List Ports) (s : State) :
    advanceRound i (s.withInputs l) = (advanceRound i s).withInputs l := by
  unfold advanceRound
  split <;> rfl

theorem roundOp_withInputs (fn : Word → Word → Word → Word) (g : BitVec 4) (i : RoundIndex) (l : List Ports)
    (s : State) : roundOp fn g i (s.withInputs l) = mapNext (State.withInputs l) (roundOp fn g i s) := by
  simp only [roundOp, mapNext_needWork, mapNext_need, mapNext_next, ← advanceRound_withInputs]
  rfl

theorem execBuild_withInputs (l : List Ports) (s : State) :
    execBuild (s.withInputs l) = mapNext (State.withInputs l) (execBuild s) := by
  simp only [execBuild, mapNext_need, apply_ite (mapNext _)]
  rfl

theorem execFinal_withInputs (l : List Ports) (s : State) :
    execFinal (s.withInputs l) = mapNext (State.withInputs l) (execFinal s) := by
  simp only [execFinal, mapNext_needWork, mapNext_needAcc]
  rfl

/-- Only START samples the ports: every other operation does the same whatever is on them (R105). -/
theorem exec_withInputs {i : Instr} (hi : i ≠ .start) (l : List Ports) (s : State) :
    exec i (s.withInputs l) = mapNext (State.withInputs l) (exec i s) := by
  cases i with
  | reset => rfl
  | phReserved => rfl
  | build => exact execBuild_withInputs l s
  | roundF j => exact roundOp_withInputs _ _ j l s
  | roundG j => exact roundOp_withInputs _ _ j l s
  | roundH j => exact roundOp_withInputs _ _ j l s
  | roundI j => exact roundOp_withInputs _ _ j l s
  | final => exact execFinal_withInputs l s
  | start => exact absurd rfl hi
  | hold => rfl

/-- A step, whatever its outcome, is that of its operation with the sample used up. -/
theorem step_eq_of_selects {s : State} {i : Instr} (hd : ∃ w, fetch s = .ok w ∧ decodeSel w = i) :
    step s = mapNext State.dropSample (exec i s) := by
  obtain ⟨w, hf, rfl⟩ := hd
  simp only [step, hf]
  cases exec (decodeSel w) s <;> rfl

/-- The sample of a step that is no START leaves no trace in its outcome. -/
theorem step_withInputs_of_selects {s : State} {p : Ports} {l : List Ports} {i : Instr} (hi : i ≠ .start)
    (hd : ∃ w, fetch (s.withInputs (p :: l)) = .ok w ∧ decodeSel w = i) :
    step (s.withInputs (p :: l)) = mapNext (State.withInputs l) (exec i s) := by
  rw [step_eq_of_selects hd, exec_withInputs hi, mapNext_mapNext]
  rfl

/-- In a busy phase the outcome of a step is settled before the ports are sampled, unless they reset it (R122). -/
theorem step_outcome_of_busy {s : State} (l : List Ports) (hb : Busy s) :
    ∃ r, ∀ p : Ports, p.rst = false → step (s.withInputs (p :: l)) = r := by
  rcases hb with hp | hp | hp
  case inl =>
    exact ⟨_, fun p hr => step_withInputs_of_selects (i := .build) nofun
      (selects_of_phase (s := s.withInputs (p :: l)) hr hp nofun (decodeSel_build _))⟩
  case inr.inl =>
    cases hi : s.ri with
    | val i =>
      exact ⟨_, fun p hr => step_withInputs_of_selects (roundInstr_ne_start_and_ne_hold i).1
        ⟨_, fetch_val (s := s.withInputs (p :: l)) hr hp hi, decodeSel_round _ i⟩⟩
    | bot =>
      exact ⟨.fault (.readBottom .ri), fun p hr => by simp [step, fetch, State.withInputs, State.sample, hr, hp, hi]⟩
  case inr.inr =>
    exact ⟨_, fun p hr => step_withInputs_of_selects (i := .final) nofun
      (selects_of_phase (s := s.withInputs (p :: l)) hr hp nofun (decodeSel_final _))⟩

/-- In a busy phase only BUILD, a round or FINAL is selected (R122). -/
theorem selects_busy {s : State} {w : Sel} (hb : Busy s) (hr : s.sample.rst = false) (hf : fetch s = .ok w) :
    decodeSel w = .build ∨ (∃ i, decodeSel w = roundInstr i) ∨ decodeSel w = .final := by
  obtain ⟨p, i, hph, rfl⟩ := fetch_ok hr hf
  rcases hb with hp | hp | hp <;> cases hph.symm.trans hp
  case inl => exact .inl (decodeSel_build _ i)
  case inr.inl => exact .inr (.inl ⟨i, decodeSel_round _ i⟩)
  case inr.inr => exact .inr (.inr (decodeSel_final _ i))

/-- Settles O17: both steps have the outcome that was settled before the ports were sampled. -/
theorem startWhileBusyLeavesNoTrace : Obligations.StartWhileBusyLeavesNoTrace := by
  intro s p q l hb hp hq
  obtain ⟨r, hr⟩ := step_outcome_of_busy l hb
  exact ⟨(hr p hp).trans (hr q hq).symm, fun w hf => selects_busy (s := s.withInputs (p :: l)) hb hp hf⟩

end Sys2Proof.Machine
end

section
/-! PROOFS. The block builder of spec/41_block_builder.md: BUILD (R140) and the invariants of Pad (R142). -/

namespace Sys2Proof.Machine

/-! ## BUILD (R140) -/

/-- Settles O19: BUILD answers `builtState`, whose registers are the numbers of R67, whose PH is ROUND and whose
CAUSE is the old one. -/
theorem buildLoadsBlockAndRegisters : Obligations.BuildLoadsBlockAndRegisters := by
  intro s n m hlen hn hm
  exact ⟨decodeSel_build, builtState s m, exec_build_of hlen hn hm, State.busy_of_ph (p := .round) rfl,
    State.done_of_ph (p := .round) rfl, State.err_of_ph (p := .round) rfl, rfl, rfl⟩

/-! ## The bytes of the length field (R142) -/

theorem byteOfNat_zero (v : Nat) : byteOfNat v 0 = BitVec.ofNat 8 (v % 256) := by
  apply BitVec.eq_of_toNat_eq
  simp [byteOfNat]

/-- Above its last byte a number's bytes are 0. -/
theorem byteOfNat_of_lt {v k : Nat} (h : v < 2 ^ (8 * k)) : byteOfNat v k = 0 := by
  rw [byteOfNat, Nat.div_eq_of_lt h]
  rfl

theorem readByte_pad_bitLengthLow {m : List Byte} (hm : m.length ≤ 55) :
    readByte (pad m) 56 = .val (BitVec.ofNat 8 (8 * m.length % 256)) := by
  rw [readByte_pad_lengthField hm (k := 0) (by omega), byteOfNat_zero]

theorem readByte_pad_bitLengthHigh {m : List Byte} (hm : m.length ≤ 55) :
    readByte (pad m) 57 = .val (BitVec.ofNat 8 (8 * m.length / 256)) :=
  readByte_pad_lengthField hm (k := 1) (by omega)

/-- A bit length of at most 440 has two bytes, so the other six of the field are 0. -/
theorem readByte_pad_aboveBitLength {m : List Byte} (hm : m.length ≤ 55) {k : Nat} (hlow : 58 ≤ k) (hhigh : k < 64) :
    readByte (pad m) k = .val 0x00 := by
  obtain ⟨j, rfl⟩ := Nat.exists_eq_add_of_le (show 56 ≤ k by omega)
  have hfits : 8 * m.length < 2 ^ (8 * j) :=
    calc 8 * m.length < 2 ^ 16 := by omega
      _ ≤ 2 ^ (8 * j) := Nat.pow_le_pow_right (by omega) (by omega)
  rw [readByte_pad_lengthField hm (by omega), byteOfNat_of_lt hfits]

/-- The empty message is no special case: after the mark come zero bytes, and its bit length is 0. -/
theorem readByte_pad_nil {k : Nat} (hlow : 1 ≤ k) (hhigh : k < 64) : readByte (pad []) k = .val 0x00 := by
  rcases Nat.lt_or_ge k 56 with hzero | hfield
  · exact readByte_pad_zero (Nat.zero_le _) hlow hzero
  · obtain ⟨j, rfl⟩ := Nat.exists_eq_add_of_le hfield
    rw [readByte_pad_lengthField (Nat.zero_le _) (by omega), List.length_nil, Nat.mul_zero,
      byteOfNat_of_lt (Nat.two_pow_pos _)]

/-- Settles O23: the mark, the bytes of the length field and its value for every legal length; lengths 55 and 0 are the
ends of the range. -/
theorem padInvariants : Obligations.PadInvariants := by
  intro m hm
  refine ⟨readByte_pad_mark hm, readByte_pad_bitLengthLow hm, readByte_pad_bitLengthHigh hm, by omega,
    fun k hlow hhigh => readByte_pad_aboveBitLength hm hlow hhigh, fun hlongest => ⟨?mark, ?low⟩, fun hempty => ?nil,
    memRead_pad_lengthField hm⟩
  case mark => rw [← hlongest, readByte_pad_mark hm]
  case low => rw [readByte_pad_bitLengthLow hm, hlongest]; rfl
  case nil =>
    subst hempty
    exact ⟨readByte_pad_mark hm, fun k hlow hhigh => readByte_pad_nil hlow hhigh⟩

end Sys2Proof.Machine
end

section
/-! PROOFS. The word loader of spec/42_word_loader.md: a word of the view as a sum of its bytes (R150), and the words of
the padded block (R152). -/

namespace Sys2Proof.Machine

/-! ## A word as a sum (R150) -/

theorem wordView_of_memRead {blk : Memory} {j : BitVec 4} {v : Nat} (h : memRead blk (4 * j.toNat) 4 = .val v) :
    wordView blk j = .val (BitVec.ofNat 32 v) := by
  rw [wordView, h, Elem.map_val]

theorem memRead_succ_of_readByte {m : Memory} {addr n v : Nat} {b : Byte} (h : memRead m addr n = .val v)
    (hb : readByte m (addr + n) = .val b) : memRead m addr (n + 1) = .val (v + b.toNat * 2 ^ (8 * n)) := by
  rw [memRead, h, hb, Elem.map2_val]

/-- Settles O24: the sum by reading one byte after the other, and the concatenation because the view joins its four
bytes. -/
theorem wordViewIsLittleEndian : Obligations.WordViewIsLittleEndian := by
  intro blk j b0 b1 b2 b3 h0 h1 h2 h3
  have hsum : memRead blk (4 * j.toNat) 4 =
      .val (b0.toNat + b1.toNat * 2 ^ 8 + b2.toNat * 2 ^ 16 + b3.toNat * 2 ^ 24) := by
    have hread := memRead_succ_of_readByte (n := 0) rfl h0
    simpa using memRead_succ_of_readByte (memRead_succ_of_readByte (memRead_succ_of_readByte hread h1) h2) h3
  have hbytes : ∀ k < 4, readByte blk (4 * j.toNat + k) = .val ([b0, b1, b2, b3].getD k 0) := by
    intro k hk
    interval_cases k <;> assumption
  exact ⟨wordView_of_memRead hsum, by simpa using wordView_of_readByte hbytes⟩

/-! ## Zero bytes -/

/-- Zero bytes above the bytes of a number do not change it. -/
theorem memRead_of_zero_above {m : Memory} {addr n v : Nat} (h : memRead m addr n = .val v) (c : Nat)
    (hzero : ∀ k, n ≤ k → k < n + c → readByte m (addr + k) = .val 0) : memRead m addr (n + c) = .val v := by
  induction c with
  | zero => exact h
  | succ c ih =>
    have hlow := ih fun k hk hkc => hzero k hk (by omega)
    simpa [Nat.add_assoc] using memRead_succ_of_readByte hlow (hzero (n + c) (by omega) (by omega))

theorem wordView_of_zero_bytes {blk : Memory} {j : BitVec 4}
    (h : ∀ k < 4, readByte blk (4 * j.toNat + k) = .val 0) : wordView blk j = .val 0 :=
  wordView_of_memRead (memRead_of_zero_above (n := 0) rfl 4 fun k _ hk => h k (by omega))

/-! ## The words of the padded block (R152) -/

/-- Word 14 is the low half of the length field. -/
theorem wordView_pad_bitLength {m : List Byte} (hm : m.length ≤ 55) :
    wordView (pad m) 14 = .val (BitVec.ofNat 32 (8 * m.length)) := by
  have hfits : 8 * m.length < 2 ^ (8 * 4) := by omega
  have hread : memRead (pad m) 56 4 = .val (8 * m.length) := by
    rw [memRead_of_readByte fun k hk => readByte_pad_lengthField hm (show k < 8 by omega), sum_byteOfNat,
      Nat.mod_eq_of_lt hfits]
  exact wordView_of_memRead hread

/-- Word 15 is the high half of the length field, which a bit length of at most 440 does not reach. -/
theorem wordView_pad_last {m : List Byte} (hm : m.length ≤ 55) : wordView (pad m) 15 = .val 0 :=
  wordView_of_zero_bytes fun k hk =>
    readByte_pad_aboveBitLength hm (show 58 ≤ 60 + k by omega) (show 60 + k < 64 by omega)

theorem wordView_pad_aboveMark {m : List Byte} (hm : m.length ≤ 55) {j : BitVec 4} (hlow : m.length < 4 * j.toNat)
    (hhigh : j.toNat ≤ 13) : wordView (pad m) j = .val 0 :=
  wordView_of_zero_bytes fun _ _ => readByte_pad_zero hm (by omega) (by omega)

/-- The word the mark falls into, byte by byte: the last `n mod 4` message bytes, the mark, and zeros up to the word's
end. -/
theorem memRead_pad_markWord {m : List Byte} (hm : m.length ≤ 55) :
    memRead (pad m) (4 * (m.length / 4)) 4 =
      .val (((List.range (m.length % 4)).map fun k =>
          (m.getD (4 * (m.length / 4) + k) 0).toNat * 2 ^ (8 * k)).sum + 0x80 * 2 ^ (8 * (m.length % 4))) := by
  have hmessage := memRead_of_readByte (n := m.length % 4) fun k hk =>
    readByte_pad_message hm (show 4 * (m.length / 4) + k < m.length by omega)
  have hmark : readByte (pad m) (4 * (m.length / 4) + m.length % 4) = .val 0x80 := by
    rw [Nat.div_add_mod, readByte_pad_mark hm]
  have hword := memRead_of_zero_above (memRead_succ_of_readByte hmessage hmark) (3 - m.length % 4)
    fun k hlow hhigh => readByte_pad_zero hm (by omega) (by omega)
  rwa [show m.length % 4 + 1 + (3 - m.length % 4) = 4 by omega] at hword

/-- Settles O25: words 14 and 15 from the length field, the word of the mark from its three regions, and the words
between from the zero bytes. -/
theorem wordsOfThePaddedBlock : Obligations.WordsOfThePaddedBlock := by
  intro m hm
  have hindex : (BitVec.ofNat 4 (m.length / 4)).toNat = m.length / 4 := by
    rw [BitVec.toNat_ofNat, Nat.mod_eq_of_lt (by omega)]
  exact ⟨wordView_pad_bitLength hm, wordView_pad_last hm,
    wordView_of_memRead (by rw [hindex, memRead_pad_markWord hm]),
    fun _ hlow hhigh => wordView_pad_aboveMark hm hlow hhigh⟩

end Sys2Proof.Machine
end

section
/-! PROOFS. The compression rounds of spec/43_compression_rounds.md: the four functions bit by bit (R160 to R163), the
result of each round operation (R165 to R168), the sequencer (R169), and 64 rounds in a row (R173). -/

namespace Sys2Proof.Machine

open Sys2Proof.Safety

/-! ## The nonlinear functions (R160 to R163) -/

theorem fnF_getLsbD (b c d : Word) {k : Nat} (hk : k < 32) :
    (fnF b c d).getLsbD k = if b.getLsbD k then c.getLsbD k else d.getLsbD k := by
  simp only [fnF, BitVec.getLsbD_or, BitVec.getLsbD_and, BitVec.getLsbD_not, hk]
  cases b.getLsbD k <;> simp

theorem fnG_getLsbD (b c d : Word) {k : Nat} (hk : k < 32) :
    (fnG b c d).getLsbD k = if d.getLsbD k then b.getLsbD k else c.getLsbD k := by
  simp only [fnG, BitVec.getLsbD_or, BitVec.getLsbD_and, BitVec.getLsbD_not, hk]
  cases d.getLsbD k <;> simp

theorem fnH_getLsbD (b c d : Word) (k : Nat) :
    (fnH b c d).getLsbD k = (b.getLsbD k ^^ (c.getLsbD k ^^ d.getLsbD k)) := by
  rw [fnH, BitVec.getLsbD_xor, BitVec.getLsbD_xor, Bool.xor_assoc]

theorem fnI_getLsbD (b c d : Word) {k : Nat} (hk : k < 32) :
    (fnI b c d).getLsbD k = (c.getLsbD k ^^ (b.getLsbD k || !d.getLsbD k)) := by
  simp only [fnI, BitVec.getLsbD_xor, BitVec.getLsbD_or, BitVec.getLsbD_not, hk, decide_true, Bool.true_and]

theorem getLsbD_ones {k : Nat} (hk : k < 32) : (0xFFFFFFFF : Word).getLsbD k = true :=
  (BitVec.getLsbD_allOnes (v := 32)).trans (decide_eq_true hk)

/-- G is F with its arguments turned: `d` selects between `b` and `c` (R160, R161). -/
theorem fnG_eq_fnF (b c d : Word) : fnG b c d = fnF d b c :=
  BitVec.eq_of_getLsbD_eq fun k hk => by rw [fnG_getLsbD b c d hk, fnF_getLsbD d b c hk]

theorem fnF_zero (c d : Word) : fnF 0 c d = d :=
  BitVec.eq_of_getLsbD_eq fun k hk => by
    rw [fnF_getLsbD 0 c d hk]
    simp

theorem fnF_ones (c d : Word) : fnF 0xFFFFFFFF c d = c :=
  BitVec.eq_of_getLsbD_eq fun k hk => by rw [fnF_getLsbD _ c d hk, if_pos (getLsbD_ones hk)]

theorem fnF_same (b x : Word) : fnF b x x = x :=
  BitVec.eq_of_getLsbD_eq fun k hk => by rw [fnF_getLsbD b x x hk, ite_self]

theorem fnH_same (x d : Word) : fnH x x d = d := by
  rw [fnH, BitVec.xor_self, BitVec.zero_xor]

theorem fnI_zero_right (b c : Word) : fnI b c 0 = ~~~c := by
  refine BitVec.eq_of_getLsbD_eq fun k hk => ?_
  rw [fnI_getLsbD b c 0 hk, BitVec.getLsbD_not]
  simp [hk]

theorem fnI_zero_ones (c : Word) : fnI 0 c 0xFFFFFFFF = c := by
  refine BitVec.eq_of_getLsbD_eq fun k hk => ?_
  rw [fnI_getLsbD 0 c _ hk, getLsbD_ones hk]
  simp

/-- Settles O28: each function by its bits, and the corner values from what the bits select; those of G are F's. -/
theorem roundFunctionsBitByBit : Obligations.RoundFunctionsBitByBit := by
  refine ⟨fun b c d k hk => ⟨fnF_getLsbD b c d hk, fnG_getLsbD b c d hk, fnH_getLsbD b c d k, fnI_getLsbD b c d hk⟩,
    fun b c d x => ⟨fnF_zero c d, fnF_ones c d, fnF_same b x, ?_, ?_, ?_, fnH_same x d, rfl, rfl, rfl,
      fnI_zero_right b c, fnI_zero_ones c⟩⟩
  · rw [fnG_eq_fnF, fnF_zero]
  · rw [fnG_eq_fnF, fnF_ones]
  · rw [fnG_eq_fnF, fnF_same]

/-! ## The four round operations (R165 to R168), by the quarter `i div 16` of the round number -/

theorem roundInstr_first {i : RoundIndex} (h : i.toNat / 16 = 0) : roundInstr i = .roundF i := by
  rw [roundInstr, quarter_toNat, h]
  rfl

theorem roundInstr_second {i : RoundIndex} (h : i.toNat / 16 = 1) : roundInstr i = .roundG i := by
  rw [roundInstr, quarter_toNat, h]
  rfl

theorem roundInstr_third {i : RoundIndex} (h : i.toNat / 16 = 2) : roundInstr i = .roundH i := by
  rw [roundInstr, quarter_toNat, h]
  rfl

theorem roundInstr_fourth {i : RoundIndex} (h : i.toNat / 16 = 3) : roundInstr i = .roundI i := by
  rw [roundInstr, quarter_toNat, h]
  rfl

/-- What holds of the four rotations of a quarter holds of the rotation of each of its rounds (R65). -/
theorem rotationAmount_mem {q : BitVec 2} {l : List (BitVec 5)} (hl : ∀ j, rotationGroup q j ∈ l) {i : RoundIndex}
    (h : i.toNat / 16 = q.toNat) : rotationAmount i ∈ l := by
  obtain rfl : quarter i = q := BitVec.eq_of_toNat_eq ((quarter_toNat i).trans h)
  exact hl _

theorem wordIndexF_eq_ofNat (i : RoundIndex) : wordIndexF i = BitVec.ofNat 4 i.toNat :=
  BitVec.eq_of_toNat_eq (by simp [wordIndexF])

/-- A round before the last, with its operands readable (R164, R169). -/
theorem roundOp_of_lt {fn : Word → Word → Word → Word} {g : BitVec 4} {i : RoundIndex} {s : State} {q : Quad}
    {w : Word} (hi : i.toNat < 63) (hq : WorkIs s q) (hw : wordView s.blk g = .val w) :
    roundOp fn g i s = .next { s.setWork (roundUpdate fn i w q) with ri := .val (i + 1) } := by
  rw [roundOp_of hq hw, advanceRound_lt (lt_63_iff.2 hi)]

/-- Settles O33: quarter 0 of the schedule, whose rounds are all before the last. -/
theorem roundFResult : Obligations.RoundFResult := by
  intro s i a b c d w hi ha hb hc hd hw
  have hquarter : i.toNat / 16 = 0 := by omega
  rw [← wordIndexF_eq_ofNat] at hw
  exact ⟨fun st => by rw [decodeSel_round, roundInstr_first hquarter],
    rotationAmount_mem (q := 0) (by decide) hquarter,
    roundOp_of_lt (fn := fnF) (q := ⟨a, b, c, d⟩) (by omega) ⟨ha, hb, hc, hd⟩ hw⟩

/-- Settles O34: quarter 1 of the schedule, whose rounds are all before the last. -/
theorem roundGResult : Obligations.RoundGResult := by
  intro s i a b c d w hlow hhigh ha hb hc hd hw
  have hquarter : i.toNat / 16 = 1 := by omega
  exact ⟨fun st => by rw [decodeSel_round, roundInstr_second hquarter],
    rotationAmount_mem (q := 1) (by decide) hquarter,
    roundOp_of_lt (fn := fnG) (q := ⟨a, b, c, d⟩) (by omega) ⟨ha, hb, hc, hd⟩ hw⟩

/-- Settles O35: quarter 2 of the schedule, whose rounds are all before the last. -/
theorem roundHResult : Obligations.RoundHResult := by
  intro s i a b c d w hlow hhigh ha hb hc hd hw
  have hquarter : i.toNat / 16 = 2 := by omega
  exact ⟨fun st => by rw [decodeSel_round, roundInstr_third hquarter],
    rotationAmount_mem (q := 2) (by decide) hquarter,
    roundOp_of_lt (fn := fnH) (q := ⟨a, b, c, d⟩) (by omega) ⟨ha, hb, hc, hd⟩ hw⟩

/-- The sequencer's move as one record update, whichever of its two branches is taken (R169). -/
theorem advanceRound_eq (i : RoundIndex) (s : State) :
    advanceRound i s =
      { s with
        ri := if i.toNat < 63 then .val (i + 1) else s.ri
        ph := if i.toNat < 63 then s.ph else .val .final } := by
  rw [← advanceRound_ri, ← advanceRound_ph]
  unfold advanceRound
  split <;> rfl

/-- Settles O36: quarter 3 of the schedule, which holds the last round. -/
theorem roundIResult : Obligations.RoundIResult := by
  intro s i a b c d w hlow ha hb hc hd hw
  have hbound : i.toNat < 64 := i.isLt
  have hquarter : i.toNat / 16 = 3 := by omega
  refine ⟨fun st => by rw [decodeSel_round, roundInstr_fourth hquarter],
    rotationAmount_mem (q := 3) (by decide) hquarter, ?_⟩
  have hround : exec (.roundI i) s = .next (advanceRound i (s.setWork (roundUpdate fnI i w ⟨a, b, c, d⟩))) :=
    roundOp_of ⟨ha, hb, hc, hd⟩ hw
  rw [hround, advanceRound_eq]
  rfl

/-! ## The sequencer (R169) -/

/-- Settles O38: whatever the datapath did, PH and RI are the sequencer's. -/
theorem roundsAdvanceTheSequencer : Obligations.RoundsAdvanceTheSequencer := by
  intro s t i hi h
  rw [exec_roundInstr] at h
  obtain ⟨q, w, -, -, rfl⟩ := roundOp_next h
  rw [advanceRound_ri, advanceRound_ph, State.setWork_ri, State.setWork_ph]
  refine ⟨fun hlt => ⟨if_pos hlt, if_pos hlt⟩, fun hlast => ⟨if_neg (by omega), ?_⟩⟩
  obtain rfl : i = 63 := BitVec.eq_of_toNat_eq hlast
  rwa [if_neg (by omega)]

/-! ## 64 rounds (R173) -/

/-- The state `n` rounds after `s`, for `n` below 64: the registers have gone through rounds 0 to `n - 1` over the words
`w`, RI counts the rounds, and a sample is used up for each. -/
def afterRounds (s : State) (w : BitVec 4 → Word) (n : Nat) : State :=
  { s.setWork (compressRounds w n) with ri := .val (BitVec.ofNat 6 n), inputs := s.inputs.drop n }

theorem afterRounds_zero {s : State} (w : BitVec 4 → Word) (hi : s.ri = .val 0) (hq : WorkIs s ivQuad) :
    afterRounds s w 0 = s := by
  obtain ⟨ha, hb, hc, hd⟩ := hq
  cases s
  simp_all [afterRounds, compressRounds, State.setWork]

theorem afterRounds_sample (s : State) (w : BitVec 4 → Word) (n : Nat) : (afterRounds s w n).sample = sampleAt s n := by
  rw [← sampleAt_zero]
  simp [sampleAt, afterRounds]

/-- Round `n` of the schedule, the datapath done and the sequencer still to move. -/
theorem step_afterRounds {s : State} {w : BitVec 4 → Word} {n : Nat} (hr : (sampleAt s n).rst = false)
    (hp : s.ph = .val .round) (hw : ∀ j, wordView s.blk j = .val (w j)) :
    step (afterRounds s w n) =
      .next (advanceRound (BitVec.ofNat 6 n) ((afterRounds s w n).setWork (compressRounds w (n + 1)))).dropSample :=
  step_round (by rwa [afterRounds_sample]) hp rfl ⟨rfl, rfl, rfl, rfl⟩ (hw _)

theorem run_afterRounds {s : State} {w : BitVec 4 → Word} (hp : s.ph = .val .round) (hi : s.ri = .val 0)
    (hq : WorkIs s ivQuad) (hw : ∀ j, wordView s.blk j = .val (w j)) {n : Nat} (hn : n < 64)
    (hr : ∀ k < n, (sampleAt s k).rst = false) : run n s = .next (afterRounds s w n) := by
  induction n with
  | zero => rw [run_zero, afterRounds_zero w hi hq]
  | succ n ih =>
    have hlt : BitVec.ofNat 6 n < 63 := by
      rw [lt_63_iff, BitVec.toNat_ofNat, Nat.mod_eq_of_lt] <;> omega
    rw [run_add_of 1 (ih (by omega) fun k hk => hr k (by omega)), run_one, step_afterRounds (hr n (by omega)) hp hw,
      advanceRound_lt hlt]
    simp [afterRounds, State.dropSample, State.setWork, BitVec.ofNat_add]

/-- Settles O40: 63 rounds by induction, and the last one, after which the sequencer leaves PH = ROUND. -/
theorem sixtyFourRoundsCompress : Obligations.SixtyFourRoundsCompress := by
  intro s w hp hi hq hw hr
  have hrun : run 63 s = .next (afterRounds s w 63) :=
    run_afterRounds hp hi hq hw (by omega) fun k hk => hr k (by omega)
  have hlast : run 64 s = .next { (afterRounds s w 63).setWork (compress w) with ph := .val .final }.dropSample := by
    rw [run_add_of 1 hrun, run_one, step_afterRounds (hr 63 (by omega)) hp hw]
    rfl
  exact ⟨_, hlast, rfl, rfl, ⟨rfl, rfl, rfl, rfl⟩, rfl, rfl, rfl, rfl, rfl, rfl, rfl, rfl, List.tail_drop⟩

end Sys2Proof.Machine
end

section
/-! PROOFS. Runs of several steps of a request: the samples a run uses up, and CAUSE, which no step after START writes
(spec/44_digest_assembler.md R195). -/

namespace Sys2Proof.Machine

open Sys2Proof.Safety

/-! ## What a step does to the input samples and to CAUSE -/

theorem step_inputs {s t : State} (h : step s = .next t) : t.inputs = s.inputs.tail := by
  obtain ⟨_, _, -, he, rfl⟩ := step_next h
  rw [State.dropSample_inputs, exec_inputs he]

/-- Each step of a run uses up one sample (log 2). -/
theorem run_inputs {n : Nat} {s t : State} (h : run n s = .next t) : t.inputs = s.inputs.drop n := by
  induction n generalizing s with
  | zero => cases h; rfl
  | succ n ih =>
    rw [run] at h
    split at h
    next u hu => rw [ih h, step_inputs hu, List.drop_tail]
    all_goals cases h

@[simp] theorem advanceRound_cause (i : RoundIndex) (s : State) : (advanceRound i s).cause = s.cause := by
  rw [advanceRound_eq]

/-- Only RESET and START write CAUSE (R48). -/
theorem step_cause_of_not_waiting {s t : State} (hr : s.sample.rst = false) (hw : ¬ Waiting s) (h : step s = .next t) :
    t.cause = s.cause := by
  rcases step_cases h with ⟨hreset, -⟩ | ⟨-, hold | start | reject | build | round | final⟩
  · simp [hr] at hreset
  · obtain ⟨hwait, -⟩ := hold; exact absurd hwait hw
  · obtain ⟨hwait, -⟩ := start; exact absurd hwait hw
  · obtain ⟨hwait, -⟩ := reject; exact absurd hwait hw
  · obtain ⟨-, _, _, -, -, -, rfl⟩ := build; rfl
  · obtain ⟨-, _, _, _, -, -, -, rfl⟩ := round
    rw [State.dropSample_cause, advanceRound_cause, State.setWork_cause]
  · obtain ⟨-, _, _, -, -, rfl⟩ := final; rfl

/-! ## The run of a request (R195) -/

/-- Before DONE a request is in one of the busy phases. -/
theorem Computing.not_waiting {m : List Byte} {k : Nat} {s : State} (h : Computing m (k + 1) s) : ¬ Waiting s := by
  cases h with
  | build _ hp => simp [hp]
  | round _ hp => simp [hp]
  | final _ hp => simp [hp]
  | done hk => cases hk

/-- Without a reset, `n` steps bring a request `n` steps nearer to DONE and leave CAUSE alone. -/
theorem run_of_computing {m : List Byte} {k n : Nat} {s : State} (h : Computing m (k + n) s)
    (hr : ∀ j < n, (sampleAt s j).rst = false) : ∃ t, run n s = .next t ∧ Computing m k t ∧ t.cause = s.cause := by
  induction n generalizing s with
  | zero => exact ⟨s, rfl, h, rfl⟩
  | succ n ih =>
    have hr0 : s.sample.rst = false := by rw [← sampleAt_zero]; exact hr 0 (by omega)
    obtain ⟨u, hu, hcomp⟩ := step_of_computing hr0 h
    have hcause : u.cause = s.cause := step_cause_of_not_waiting hr0 h.not_waiting hu
    obtain ⟨t, ht, hcomp', hcause'⟩ := ih hcomp fun j hj => by
      rw [sampleAt_tail (step_inputs hu)]
      exact hr (j + 1) (by omega)
    exact ⟨t, by rwa [run_succ_of n hu], hcomp', hcause'.trans hcause⟩

/-- START with a legal length and `n` further steps: the request for the message on the ports is `66 - n` steps before
DONE, and CAUSE is 00, as START left it (R121). -/
theorem run_of_request {s : State} (hw : Waiting s) (hr : s.sample.rst = false) (hs : s.sample.start = true)
    (hl : s.sample.lenIn.toNat ≤ 55) {k n : Nat} (hsteps : k + n = 66)
    (hports : ∀ j < n, (sampleAt s (j + 1)).rst = false) :
    ∃ t, run (n + 1) s = .next t ∧ Computing (requestMessage s.sample) k t ∧ t.cause = .val .none := by
  obtain ⟨u, hu, hcomp⟩ := computing_of_start hr hw hs hl
  have hcause : u.cause = .val .none := by cases (step_start_legal hr hw hs hl).symm.trans hu; rfl
  rw [← hsteps] at hcomp
  obtain ⟨t, ht, hcomp', hcause'⟩ := run_of_computing hcomp fun j hj => by
    rw [sampleAt_tail (step_inputs hu)]
    exact hports j hj
  exact ⟨t, by rwa [run_succ_of n hu], hcomp', hcause'.trans hcause⟩

/-- Settles O52: START and 66 steps leave the request at DONE, and fewer leave it on the way there. -/
theorem requestComputesTheDigest : Obligations.RequestComputesTheDigest := by
  intro s hw hr hs hl hports
  refine ⟨?atDone, fun n hpos hlt => ?before⟩
  case atDone =>
    obtain ⟨t, ht, hcomp, hcause⟩ := run_of_request hw hr hs hl (k := 0) (n := 66) rfl fun j hj =>
      hports (j + 1) (by omega) (by omega)
    exact ⟨t, ht, hcomp.atDone.1, hcause, hcomp.digestOut, run_inputs ht⟩
  case before =>
    obtain ⟨n, rfl⟩ := Nat.exists_eq_add_of_le' hpos
    obtain ⟨u, hu, hcomp, -⟩ := run_of_request hw hr hs hl (k := 65 - n + 1) (n := n) (by omega) fun j hj =>
      hports (j + 1) (by omega) (by omega)
    exact ⟨u, hu, fun hp => hcomp.not_waiting (.inr (.inl hp))⟩

end Sys2Proof.Machine
end

section
/-! PROOFS. The Digest Assembler of spec/44_digest_assembler.md: FINAL (R190) and the layout of digest_out (R191,
R192). -/

namespace Sys2Proof.Machine

/-- Settles O41: FINAL answers from its operands, and the outputs are functions of the PH, CAUSE and A0..D0 it leaves. -/
theorem finalFoldsTheAccumulators : Obligations.FinalFoldsTheAccumulators := by
  intro s a b c d a0 b0 c0 d0 ha hb hc hd ha0 hb0 hc0 hd0
  exact ⟨decodeSel_final, _,
    exec_final_of (q := ⟨a, b, c, d⟩) (r := ⟨a0, b0, c0, d0⟩) ⟨ha, hb, hc, hd⟩ ⟨ha0, hb0, hc0, hd0⟩, rfl,
    State.busy_of_ph (p := .done) rfl, State.done_of_ph (p := .done) rfl, State.err_of_ph (p := .done) rfl, rfl,
    State.digestOut_of_done rfl ⟨rfl, rfl, rfl, rfl⟩⟩

/-! ## The digest as a number in base 256 -/

/-- Shifting a byte in from below appends it as the last digit in base 256, whatever overflows at the top. -/
theorem ofNat_shiftLeft_or_byte (w n : Nat) (z : Byte) :
    (BitVec.ofNat w n <<< 8) ||| z.setWidth w = BitVec.ofNat w (n * 2 ^ 8 + z.toNat) := by
  have hshift : BitVec.ofNat w n <<< 8 = BitVec.ofNat w (n <<< 8) := by
    apply BitVec.eq_of_toNat_eq
    simp [Nat.shiftLeft_eq, Nat.mod_mul_mod]
  rw [hshift, ← BitVec.ofNat_toNat, ← BitVec.ofNat_or, ← Nat.shiftLeft_add_eq_or_of_lt z.isLt, Nat.shiftLeft_eq]

theorem foldl_shiftLeft_or_byte (w n : Nat) (zs : List Byte) :
    zs.foldl (fun (v : BitVec w) z => (v <<< 8) ||| z.setWidth w) (BitVec.ofNat w n) =
      BitVec.ofNat w (zs.foldl (fun v z => v * 2 ^ 8 + z.toNat) n) := by
  induction zs generalizing n with
  | nil => rfl
  | cons z zs ih => rw [List.foldl_cons, List.foldl_cons, ofNat_shiftLeft_or_byte, ih]

/-- The bytes Z read most significant byte first, as a number (R191). -/
theorem serialise_eq_ofNat (q : Quad) :
    serialise q = BitVec.ofNat 128 ((digestBytes q).foldl (fun v z => v * 2 ^ 8 + z.toNat) 0) :=
  foldl_shiftLeft_or_byte 128 0 (digestBytes q)

theorem digestBytes_eq (q : Quad) :
    digestBytes q =
      [byteOf q.a 0, byteOf q.a 1, byteOf q.a 2, byteOf q.a 3, byteOf q.b 0, byteOf q.b 1, byteOf q.b 2, byteOf q.b 3,
        byteOf q.c 0, byteOf q.c 1, byteOf q.c 2, byteOf q.c 3, byteOf q.d 0, byteOf q.d 1, byteOf q.d 2,
        byteOf q.d 3] := rfl

theorem toNat_append_word {w : Nat} (x : BitVec w) (y : Word) : (x ++ y).toNat = x.toNat * 2 ^ 32 + y.toNat := by
  rw [BitVec.toNat_append, ← Nat.shiftLeft_add_eq_or_of_lt y.isLt, Nat.shiftLeft_eq]

/-- R192: both sides are the number with the sixteen bytes of Z as its digits. -/
theorem serialise_eq_bswap32 (q : Quad) :
    serialise q = bswap32 q.a ++ bswap32 q.b ++ bswap32 q.c ++ bswap32 q.d := by
  rw [serialise_eq_ofNat]
  apply BitVec.eq_of_toNat_eq
  simp only [BitVec.toNat_ofNat, digestBytes_eq, List.foldl, bswap32, toNat_append_word, toNat_append_byte]
  omega

/-! ## The bytes of the digest (R191) -/

/-- Four fields of one width side by side, the first the most significant: each field cut out again. -/
theorem extractLsb'_append_four {w : Nat} (a b c d : BitVec w) {j : Nat} (hj : j < 4) :
    (a ++ b ++ c ++ d).extractLsb' (w * (3 - j)) w = [a, b, c, d].getD j 0 := by
  interval_cases j
  · rw [BitVec.extractLsb'_append_eq_of_le (by omega), BitVec.extractLsb'_append_eq_of_le (by omega),
      show w * (3 - 0) - w - w = w by omega, BitVec.extractLsb'_append_eq_left]
    rfl
  · rw [BitVec.extractLsb'_append_eq_of_le (by omega), BitVec.extractLsb'_append_eq_of_le (by omega),
      show w * (3 - 1) - w - w = 0 by omega, BitVec.extractLsb'_append_eq_right]
    rfl
  · rw [BitVec.extractLsb'_append_eq_of_le (by omega), show w * (3 - 2) - w = 0 by omega,
      BitVec.extractLsb'_append_eq_right]
    rfl
  · exact BitVec.extractLsb'_append_eq_right

/-- A field of a field is a field of the whole. -/
theorem extractLsb'_extractLsb' {w n k l m : Nat} (x : BitVec w) (h : l + m ≤ n) :
    (x.extractLsb' k n).extractLsb' l m = x.extractLsb' (k + l) m := by
  ext i hi
  simp [Nat.add_assoc]
  omega

theorem byteOf_bswap32 (x : Word) {m : Nat} (hm : m < 4) : byteOf (bswap32 x) (3 - m) = byteOf x m := by
  rw [byteOf, bswap32, extractLsb'_append_four _ _ _ _ hm]
  interval_cases m <;> rfl

/-- Word `j` of the digest, the first the most significant, is accumulator `j` with its bytes swapped. -/
theorem extractLsb'_serialise (q : Quad) {j : Nat} (hj : j < 4) :
    (serialise q).extractLsb' (32 * (3 - j)) 32 = bswap32 ([q.a, q.b, q.c, q.d].getD j 0) := by
  rw [serialise_eq_bswap32, extractLsb'_append_four _ _ _ _ hj]
  interval_cases j <;> rfl

/-- Settles O43: the form by `bswap32`, and from it byte `m` of accumulator `j` as byte `3 - m` of word `j`. -/
theorem digestOutputLayout : Obligations.DigestOutputLayout := by
  intro s a0 b0 c0 d0 hp ha hb hc hd
  refine ⟨_, State.digestOut_of_done (q := ⟨a0, b0, c0, d0⟩) hp ⟨ha, hb, hc, hd⟩, fun j m hj hm => ?bytes,
    serialise_eq_bswap32 _⟩
  have hplace : 120 - 8 * (4 * j + m) = 32 * (3 - j) + 8 * (3 - m) := by omega
  rw [hplace, ← extractLsb'_extractLsb' _ (show 8 * (3 - m) + 8 ≤ 32 by omega), extractLsb'_serialise _ hj]
  exact byteOf_bswap32 _ hm

end Sys2Proof.Machine
end

section
/-! PROOFS. The engine's one exception (spec/60_exceptions.md): its condition and what raising it writes (R201, R203), how
ERR is left (R204, R205), and which of several simultaneous events happens (R209). -/

namespace Sys2Proof.Machine

open Sys2Proof.Safety

/-! ## InputTooLong (R201, R203) -/

/-- 56 is a multiple of 8, so a length is above 55 by its upper three bits alone (R201). -/
theorem lt_length_iff_upper_bits (n : Length) : 55 < n.toNat ↔ n.extractLsb' 3 3 = 0b111 := by
  have hn : n.toNat < 64 := n.isLt
  have hupper : (n.extractLsb' 3 3).toNat = n.toNat / 8 % 8 := by
    rw [BitVec.extractLsb'_toNat, Nat.shiftRight_eq_div_pow]
  rw [← BitVec.toNat_inj, hupper]
  change 55 < n.toNat ↔ n.toNat / 8 % 8 = 7
  omega

/-- Settles O15: START of an illegal length raises the exception, whose state is the given one with four elements
written. -/
theorem inputTooLongIsTakenAsARejection : Obligations.InputTooLongIsTakenAsARejection :=
  fun s => ⟨lt_length_iff_upper_bits _, fun hlong =>
    ⟨latchBytes s.sample.msgIn, exec_start_illegal hlong, fun _ hk => readByte_latchBytes_lane _ hk⟩⟩

/-! ## Leaving ERR (R204, R205) -/

/-- Settles O16: ERR is a waiting phase other than DONE, so its step is HOLD, START by the length, or RESET. -/
theorem errorIsLeftByStartOrReset : Obligations.ErrorIsLeftByStartOrReset := by
  intro s hp
  have hw : Waiting s := .inr (.inr hp)
  refine ⟨State.digestOut_of_not_done (by simp [hp]), fun hr hs => ?hold, fun hr hs hlegal => ?start,
    fun hr hs hlong => ?reject, fun hr => ?reset⟩
  case hold => exact ⟨_, step_hold hr hw hs, hp, rfl⟩
  case start => exact ⟨_, step_start_legal hr hw hs hlegal, rfl, rfl⟩
  case reject => exact ⟨_, step_start_illegal hr hw hs hlong, rfl, rfl⟩
  case reset => exact ⟨_, step_reset hr, rfl, rfl⟩

/-! ## Simultaneous events (R209) -/

/-- START leaves CAUSE at 00 or at InputTooLong, so no order among causes is needed (R209). -/
theorem exec_start_cause {s t : State} (h : exec .start s = .next t) :
    t.cause = .val .none ∨ t.cause = .val .inputTooLong := by
  rcases Nat.lt_or_ge 55 s.sample.lenIn.toNat with hlong | hlegal
  · cases (exec_start_illegal hlong).symm.trans h; exact .inr rfl
  · cases (exec_start_legal hlegal).symm.trans h; exact .inl rfl

/-- Settles O8: the operation that `rst`, the phase and, only where the engine waits, `start` select. -/
theorem priorityOfSimultaneousEvents : Obligations.PriorityOfSimultaneousEvents := by
  refine fun s => ⟨fun hr => ?reset, fun hr hp => ?build, fun i hr hp hi => ?round, fun hr hp => ?final,
    fun hr hw hs => ?start, fun hr hw hs => ?hold, fun t h => exec_start_cause h⟩
  case reset => exact ⟨_, fetch_reset hr, decodeSel_reset ..⟩
  case build => exact selects_of_phase hr hp nofun (decodeSel_build _)
  case round => exact ⟨_, fetch_val hr hp hi, decodeSel_round ..⟩
  case final => exact selects_of_phase hr hp nofun (decodeSel_final _)
  case start => simpa [hs] using selects_waiting hr hw
  case hold => simpa [hs] using selects_waiting hr hw

end Sys2Proof.Machine
end

section
/-! PROOFS. Reset, power-up and the order of a request in time, spec/70_reset_and_hazards.md: RESET (R230), the steps
before it (R231), a held start (R238), and the step counts of a request (R240). -/

namespace Sys2Proof.Machine

open Sys2Proof.Safety

/-! ## A held start (R238) -/

/-- Settles O18: DONE and ERR are waiting phases, so the step is START of the current sample, by its length, and neither
phase it goes to shows a digest. -/
theorem heldStartStartsAgain : Obligations.HeldStartStartsAgain := by
  intro s hp hr hs
  have hw : Waiting s := .inr hp
  rcases Nat.lt_or_ge 55 s.sample.lenIn.toNat with hlong | hlegal
  · exact ⟨_, step_start_illegal hr hw hs hlong, rfl, fun k hk => readByte_latchBytes_lane _ hk, .inr rfl,
      State.digestOut_of_not_done nofun⟩
  · exact ⟨_, step_start_legal hr hw hs hlegal, rfl, fun k hk => readByte_latchBytes_lane _ hk, .inl rfl,
      State.digestOut_of_not_done nofun⟩

/-! ## The step counts of a request (R240) -/

theorem Computing.atBuild {m : List Byte} {s : State} (h : Computing m 66 s) : s.ph = .val .build := by
  cases h with
  | build _ hp => exact hp
  | round hk => omega
  | final hk => cases hk
  | done hk => cases hk

/-- With rounds `j` to 63 and FINAL to come, the engine is in ROUND at RI = `j` (R170). -/
theorem Computing.atRound {m : List Byte} {k j : Nat} {s : State} (h : Computing m k s) (hj : j < 64)
    (hk : j + k = 65) : s.ph = .val .round ∧ s.ri = .val (BitVec.ofNat 6 j) := by
  cases h with
  | build hbuild => omega
  | @round i hround hp _ _ hi =>
    obtain rfl : j = i.toNat := by omega
    exact ⟨hp, by rw [hi, BitVec.ofNat_toNat, BitVec.setWidth_eq]⟩
  | final hfinal => omega
  | done hdone => omega

theorem Computing.atFinal {m : List Byte} {s : State} (h : Computing m 1 s) : s.ph = .val .final := by
  cases h with
  | build hk => cases hk
  | @round i hk => have hbound : i.toNat < 64 := i.isLt; omega
  | final _ hp => exact hp
  | done hk => cases hk

/-- Settles O51: an illegal length is rejected by START itself; of a legal request, the number of steps still to come
names the phase, and the round number in ROUND. -/
theorem requestStepCounts : Obligations.RequestStepCounts := by
  refine fun s hw hr hs => ⟨fun hlong => ?rejected, fun hlegal hports => ?legal⟩
  case rejected =>
    exact ⟨_, (run_one s).trans (step_start_illegal hr hw hs hlong), State.err_of_ph (p := .err) rfl⟩
  case legal =>
    have course : ∀ k n, k + n = 66 →
        ∃ t, run (n + 1) s = .next t ∧ Computing (requestMessage s.sample) k t := by
      intro k n hsteps
      obtain ⟨t, ht, hcomp, -⟩ := run_of_request hw hr hs hlegal hsteps fun j hj =>
        hports (j + 1) (by omega) (by omega)
      exact ⟨t, ht, hcomp⟩
    refine ⟨?build, fun j hj => ?round, ?final, ?done⟩
    case build =>
      obtain ⟨t, ht, hcomp⟩ := course 66 0 rfl
      exact ⟨t, ht, hcomp.atBuild, hcomp.busy⟩
    case round =>
      obtain ⟨t, ht, hcomp⟩ := course (64 - j + 1) (j + 1) (by omega)
      obtain ⟨hp, hi⟩ := hcomp.atRound hj (by omega)
      exact ⟨t, by rwa [Nat.add_comm 2 j], hp, hi, hcomp.busy⟩
    case final =>
      obtain ⟨t, ht, hcomp⟩ := course 1 65 rfl
      exact ⟨t, ht, hcomp.atFinal, hcomp.busy⟩
    case done =>
      obtain ⟨t, ht, hcomp⟩ := course 0 66 rfl
      exact ⟨t, ht, hcomp.atDone.1, State.done_of_ph hcomp.atDone.1⟩

/-! ## RESET and power-up (R230, R231) -/

/-- RESET leaves the reset state, beside the samples that the host has announced (R230, log 2). -/
theorem exec_reset (s : State) : exec .reset s = .next { State.reset with inputs := s.inputs } := rfl

/-- Settles O10: the state RESET leaves, the outputs as functions of its PH and CAUSE, and the step with `rst = 1`. -/
theorem resetWritesTheResetState : Obligations.ResetWritesTheResetState := fun s =>
  ⟨_, exec_reset s, rfl, rfl, rfl, rfl, readByte_nil, readByte_nil, rfl, rfl, rfl, rfl, rfl, rfl, rfl, rfl, rfl,
    State.busy_of_ph (p := .idle) rfl, State.done_of_ph (p := .idle) rfl, State.err_of_ph (p := .idle) rfl,
    State.causeOut_of_cause (c := .none) rfl, State.digestOut_of_not_done nofun, exec_reset _, step_reset⟩

/-- Without `rst` no step completes while PH is `⊥` (R231). -/
theorem step_beforeReset {s : State} (hr : s.sample.rst = false) (hp : s.ph = .bot) :
    step s = .fault .stepBeforeReset := by
  rw [step, fetch_beforeReset hr hp]

/-- Settles O11: at power-up PH is `⊥` and so is every other element, and a step is RESET or comes before it. -/
theorem powerUpNeedsReset : Obligations.PowerUpNeedsReset :=
  ⟨⟨rfl, rfl, rfl, rfl, readByte_nil, readByte_nil, rfl, rfl, rfl, rfl, rfl, rfl, rfl, rfl⟩,
    fun _ => ⟨step_reset, fun hr => step_beforeReset hr rfl⟩⟩

end Sys2Proof.Machine
end

section
/-! PROOFS. The decoder against the encoder (spec/30_encoding.md R92): what an encoding decodes to, and the bits of a
selector that its row reads. -/

namespace Sys2Proof.Machine

open Sys2Proof.Safety

/-! ## Decode of encode -/

/-- The encoding of a round is the selector of PH = ROUND at that RI, with both port bits 0 (R91, R95). -/
theorem encode_roundInstr (i : RoundIndex) : encode (roundInstr i) = selOf false false .round i := by
  revert i; decide

theorem decodeSel_encode_of_round {i : Instr} {j : RoundIndex} (h : roundInstr j = i) : decodeSel (encode i) = i := by
  rw [← h, encode_roundInstr, decodeSel_round]

/-- A round number whose quarter is known, as a number. -/
theorem div_of_quarter {i : RoundIndex} {q : BitVec 2} (h : (quarter i == q) = true) : i.toNat / 16 = q.toNat := by
  rw [← quarter_toNat, eq_of_beq h]

/-- A well-formed round operation is the operation of its own round number, so its encoding is that round's selector. -/
theorem decodeSel_encode {i : Instr} (h : i.wf = true) : decodeSel (encode i) = i := by
  cases i with
  | roundF j => exact decodeSel_encode_of_round (roundInstr_first (div_of_quarter h))
  | roundG j => exact decodeSel_encode_of_round (roundInstr_second (div_of_quarter h))
  | roundH j => exact decodeSel_encode_of_round (roundInstr_third (div_of_quarter h))
  | roundI j => exact decodeSel_encode_of_round (roundInstr_fourth (div_of_quarter h))
  | reset | phReserved | build | final | start | hold => decide

/-! ## The bits a row reads -/

theorem and_eq_of_rowMatches {mask pattern w : Sel} (h : rowMatches mask pattern w = true) : w &&& mask = pattern :=
  eq_of_beq h

/-- Bits 3:0 of a selector are the operand bits of its round number (R92). -/
theorem and_operandMask (w : Sel) : w &&& 0x00F = operandBits (roundField w) := by
  apply BitVec.eq_of_toNat_eq
  have hmask : w.toNat &&& 15 = w.toNat % 16 := Nat.and_two_pow_sub_one_eq_mod w.toNat 4
  simp [operandBits, roundField, hmask]
  omega

/-- A selector that matches a round row carries the row's pattern and its own operand bits. -/
theorem and_roundMask {pattern w : Sel} (h : rowMatches 0x5F0 pattern w = true) :
    w &&& 0x5FF = pattern ||| operandBits (roundField w) := by
  have hmask : (0x5FF : Sel) = 0x5F0 ||| 0x00F := rfl
  rw [hmask, BitVec.and_or_distrib_left, and_eq_of_rowMatches h, and_operandMask]

/-- A selector that neither RESET's row nor START's takes has both port bits 0. -/
theorem and_portMask {w : Sel} (hreset : ¬ rowMatches 0x400 0x400 w = true)
    (hstart : ¬ rowMatches 0x600 0x200 w = true) : w &&& 0x600 = 0 := by
  have hrst : w &&& 0x400 = if w.getLsbD 10 then 0x400 else 0 := BitVec.and_twoPow w 10
  have hst : w &&& 0x200 = if w.getLsbD 9 then 0x200 else 0 := BitVec.and_twoPow w 9
  have hports : w &&& 0x600 = (w &&& 0x400) ||| (w &&& 0x200) := BitVec.and_or_distrib_left (y := 0x400) (z := 0x200)
  rw [rowMatches, hrst] at hreset
  rw [rowMatches, hports, hrst, hst] at hstart
  rw [hports, hrst, hst]
  generalize w.getLsbD 10 = r at hreset hstart ⊢
  generalize w.getLsbD 9 = st at hstart ⊢
  revert r st
  decide

/-- Every selector agrees, on the bits its row reads, with the encoding of the operation it decodes to: the row that
matched fixes the bits of its mask. -/
theorem and_careMask_decodeSel (w : Sel) : w &&& careMask (decodeSel w) = encode (decodeSel w) := by
  unfold decodeSel
  split_ifs with reset reserved build roundF roundG roundH roundI final start
  · exact and_eq_of_rowMatches reset
  · exact and_eq_of_rowMatches reserved
  · exact and_eq_of_rowMatches build
  · exact and_roundMask roundF
  · exact and_roundMask roundG
  · exact and_roundMask roundH
  · exact and_roundMask roundI
  · exact and_eq_of_rowMatches final
  · exact and_eq_of_rowMatches start
  · exact and_portMask reset start

/-- Settles O2: decode of encode by the operation, and the bits a row reads by the row that a selector matched. -/
theorem decodeInvertsEncode : Obligations.DecodeInvertsEncode := by
  refine fun i h => ⟨decodeSel_encode h, fun w hw => ?_⟩
  rw [← hw]
  exact and_careMask_decodeSel w

end Sys2Proof.Machine
end

section
/-! PROOFS. The legal shape of a state after the first RESET (spec/10_state.md section 8): every step keeps it. -/

namespace Sys2Proof.Machine

open Sys2Proof.Safety

/-- Settles O53: each clause by evaluation, whatever the samples are. -/
theorem shapeHoldsAtReset : Obligations.ShapeHoldsAtReset :=
  fun _ => ⟨nofun, nofun, nofun, rfl, wf_nil _, wf_nil _⟩

/-- Only ERR carries a cause (R126). -/
theorem cause_none_of_shape {s : State} (h : Shape s) (hp : s.ph ≠ .val .err) : s.cause = .val .none := by
  obtain ⟨-, -, -, hcause, -, -⟩ := h
  rwa [if_neg hp] at hcause

/-- The shape of a state whose PH holds a phase other than ERR and the reserved ones. -/
theorem shape_of_ph {s : State} {p : Phase} (hp : s.ph = .val p)
    (hlegal : p ≠ .err ∧ p ≠ .reserved6 ∧ p ≠ .reserved7) (hcause : s.cause = .val .none)
    (hmsg : Memory.wf Config.maxLen s.msg = true) (hblk : Memory.wf Config.blockBytes s.blk = true) : Shape s := by
  obtain ⟨herr, h6, h7⟩ := hlegal
  simp [Shape, hp, herr, h6, h7, hcause, hmsg, hblk]

/-- A round moves to another round or to FINAL, and touches neither CAUSE nor a memory (R169). -/
theorem shape_advanceRound {s : State} (i : RoundIndex) (h : Shape s) (hp : s.ph = .val .round) :
    Shape (advanceRound i s) := by
  have hcause : s.cause = .val .none := cause_none_of_shape h (by simp [hp])
  obtain ⟨-, -, -, -, hmsg, hblk⟩ := h
  unfold advanceRound
  split
  · exact shape_of_ph (p := .round) hp (by decide) hcause hmsg hblk
  · exact shape_of_ph (p := .final) rfl (by decide) hcause hmsg hblk

/-- Settles O54: each operation leaves PH on a code of its own and writes CAUSE with it, and MSG and BLK are written by
START and BUILD alone, whole and in canonical form. -/
theorem stepKeepsShape : Obligations.StepKeepsShape := by
  intro s t h hstep
  have hcause := cause_none_of_shape h
  have ⟨_, _, _, _, hmsg, hblk⟩ := h
  rcases step_cases hstep with ⟨-, rfl⟩ | ⟨-, hold | start | reject | build | round | final⟩
  · exact shapeHoldsAtReset _
  · obtain ⟨-, -, rfl⟩ := hold
    exact h
  · obtain ⟨-, -, -, rfl⟩ := start
    exact shape_of_ph (p := .build) rfl (by decide) rfl (wf_latchBytes _) hblk
  · obtain ⟨-, -, -, rfl⟩ := reject
    exact ⟨nofun, nofun, nofun, rfl, wf_latchBytes _, hblk⟩
  · obtain ⟨hp, n, m, -, hn, hm, rfl⟩ := build
    have hlegal : m.length ≤ Config.maxLen := by rwa [readBytes_length hm]
    exact shape_of_ph (p := .round) rfl (by decide) (hcause (by simp [hp])) hmsg (wf_pad hlegal)
  · obtain ⟨hp, i, q, w, -, -, -, rfl⟩ := round
    exact shape_advanceRound (s := s.setWork _) i h hp
  · obtain ⟨hp, q, r, -, -, rfl⟩ := final
    exact shape_of_ph (p := .done) rfl (by decide) (hcause (by simp [hp])) hmsg hblk

end Sys2Proof.Machine
end

section
/-! PROOFS. The invariant of a request (spec/10_state.md section 8): from a state that tracks its request every step
completes and the next state tracks its request. -/

namespace Sys2Proof.Machine

open Sys2Proof.Safety

/-- Settles O55: in IDLE no request has begun. -/
theorem trackingHoldsAtReset : Obligations.TrackingHoldsAtReset := fun _ => trivial

/-- A request on its way to DONE, with its message and its steps forgotten. -/
theorem tracks_of_computing {m : List Byte} {k : Nat} {s : State} (h : Computing m k s) : Tracks s := by
  cases h with
  | build _ hp hm => simp only [Tracks, hp]; exact ⟨m, hm⟩
  | round _ hp hm hblk hi ha hq => simp only [Tracks, hp]; exact ⟨m, _, hm, hblk, hi, ha, hq⟩
  | final _ hp hm hblk hi ha hq => simp only [Tracks, hp]; exact ⟨m, hm, hblk, hi, ha, hq⟩
  | done _ hp hm ha => simp only [Tracks, hp]; exact ⟨m, hm, ha⟩

/-- A waiting engine holds, or begins a request, or rejects one (R120, R121). -/
theorem step_keeps_tracks_of_waiting {s : State} (h : Tracks s) (hr : s.sample.rst = false) (hw : Waiting s) :
    ∃ t, step s = .next t ∧ Tracks t := by
  cases hs : s.sample.start with
  | false => exact ⟨_, step_hold hr hw hs, h⟩
  | true =>
    rcases Nat.lt_or_ge 55 s.sample.lenIn.toNat with hlong | hlegal
    · exact ⟨_, step_start_illegal hr hw hs hlong, s.sample.lenIn, rfl, hlong⟩
    · obtain ⟨t, ht, hcomp⟩ := computing_of_start hr hw hs hlegal
      exact ⟨t, ht, tracks_of_computing hcomp⟩

/-- A tracking state that does not wait has its request on the way, at least one step before DONE. -/
theorem computing_of_tracks {s : State} (h : Tracks s) (hw : ¬ Waiting s) : ∃ m k, Computing m (k + 1) s := by
  obtain ⟨m, k, -, hcomp⟩ := (waiting_or_computing_of_tracks h).resolve_left hw
  cases k with
  | zero => exact absurd (.inr (.inl hcomp.atDone.1)) hw
  | succ k => exact ⟨m, k, hcomp⟩

/-- Settles O56: a reset forgets the request, a waiting engine holds or begins one, and a busy one brings its request a
step nearer to DONE. -/
theorem stepsKeepTrackingTheRequest : Obligations.StepsKeepTrackingTheRequest := by
  intro s h
  cases hr : s.sample.rst with
  | true => exact ⟨_, step_reset hr, trackingHoldsAtReset _⟩
  | false =>
    by_cases hw : Waiting s
    · exact step_keeps_tracks_of_waiting h hr hw
    · obtain ⟨m, k, hcomp⟩ := computing_of_tracks h hw
      obtain ⟨t, ht, hcomp'⟩ := step_of_computing hr hcomp
      exact ⟨t, ht, tracks_of_computing hcomp'⟩

/-- The output `done` is 1 in DONE only (R124). -/
theorem ph_of_done {s : State} (h : s.done = .val true) : s.ph = .val .done := by
  obtain ⟨p, hp, hdone⟩ := Elem.map_eq_val h
  rw [hp, eq_of_beq hdone]

/-- Settles O58: done = 1 is PH = DONE, where the invariant says what the accumulators hold. -/
theorem doneShowsTheDigestOfTheLatchedMessage : Obligations.DoneShowsTheDigestOfTheLatchedMessage := by
  intro s h hdone
  have hp := ph_of_done hdone
  simp only [Tracks, hp] at h
  obtain ⟨m, hm, ha⟩ := h
  exact ⟨m, hm, State.digestOut_of_done hp ha⟩

end Sys2Proof.Machine
end

section
/-! PROOFS. The decoder at the machine's step: numbers that are no selectors (spec/30_encoding.md R106), the operation a
step runs (R90), and the tool that places a selector (R91). -/

namespace Sys2Proof.Machine

open Sys2Proof.Safety

/-- Settles O1: each selector by evaluation of its row. -/
theorem selectorWordsDecodeToTheirRows : Obligations.SelectorWordsDecodeToTheirRows := by
  unfold Obligations.SelectorWordsDecodeToTheirRows
  decide

/-- Settles O4: the two branches of the decoder, on the two sides of `2^11`. -/
theorem onlySelectorsDecode : Obligations.OnlySelectorsDecode :=
  fun _ => ⟨fun hfits => if_pos hfits, fun hwide => if_neg (Nat.not_lt.2 hwide)⟩

/-- The operation of a round is the one of the round's quarter (R96). -/
theorem roundInstr_wf (i : RoundIndex) : (roundInstr i).wf = true := by
  revert i; decide

/-- The decoder makes well-formed operations only: a round row fixes the quarter of its round number (R95). -/
theorem decodeSel_wf (w : Sel) : (decodeSel w).wf = true := by
  obtain ⟨r, st, p, i, rfl⟩ : ∃ r st p i, w = selOf r st p i := ⟨_, _, _, _, (selOf_fields w).symm⟩
  rw [decodeSel_selOf]
  cases r with
  | true => rfl
  | false =>
    cases p with
    | round => exact roundInstr_wf i
    | idle | done | err => cases st <;> rfl
    | build | final | reserved6 | reserved7 => rfl

/-- Settles O6: the step is the operation of its selector, then the sample is used up, or that operation's fault. -/
theorem stepRunsTheDecodedOperation : Obligations.StepRunsTheDecodedOperation := by
  refine fun s w hf => ⟨decodeSel_wf w, fun t ht => ?next, fun f hfault => step_fault_of_selects ⟨w, hf, rfl⟩ hfault⟩
  rw [step_of_fetch hf ht, ← exec_inputs ht]
  rfl

theorem decodeSel_of_decodeTableWord {nbits w : Nat} {i : Instr} (h : decodeTableWord nbits w = some i) :
    decodeSel (BitVec.ofNat 11 (w % 2 ^ nbits)) = i := by
  unfold decodeTableWord decodeWord at h
  split_ifs at h
  exact Option.some.inj h

/-- Settles O7: the selector that was placed is the one formed, and the other elements are as before by the update
itself. -/
theorem fetchWordSelectsItsOperation : Obligations.FetchWordSelectsItsOperation :=
  fun s nbits w _ h =>
    ⟨⟨_, fetch_withFetchWord s nbits w, decodeSel_of_decodeTableWord h⟩, rfl, rfl, rfl, rfl⟩

end Sys2Proof.Machine
end

section
/-! PROOFS. The frames of the operations (spec/10_state.md section 9): what START, BUILD, the rounds and FINAL leave
unchanged. -/

namespace Sys2Proof.Machine

open Sys2Proof.Safety

/-- START answers in every state: a length that is too long is no fault (R203). -/
theorem exec_start_answers (s : State) : ∃ t, exec .start s = .next t := by
  rcases Nat.lt_or_ge 55 s.sample.lenIn.toNat with hlong | hlegal
  · exact ⟨_, exec_start_illegal hlong⟩
  · exact ⟨_, exec_start_legal hlegal⟩

/-- Both outcomes of START latch the request, and write PH and CAUSE beside it (R121, R203). -/
theorem exec_start_next {s t : State} (h : exec .start s = .next t) :
    ∃ ph cause, t = { latchRequest s.sample s with ph := ph, cause := cause } := by
  rcases Nat.lt_or_ge 55 s.sample.lenIn.toNat with hlong | hlegal
  · cases (exec_start_illegal hlong).symm.trans h; exact ⟨_, _, rfl⟩
  · cases (exec_start_legal hlegal).symm.trans h; exact ⟨_, _, rfl⟩

/-- Settles O14: START latches the request and writes PH and CAUSE, and the latch ends at its 55 bytes. -/
theorem startFrame : Obligations.StartFrame := by
  intro s t h
  obtain ⟨ph, cause, rfl⟩ := exec_start_next h
  refine ⟨rfl, fun _ => rfl, rfl, rfl, rfl, rfl, rfl, rfl, rfl, rfl, rfl, rfl, fun hwf x hx => ?_⟩
  rw [readByte_outside hwf hx]
  exact readByte_outside (wf_latchBytes _) hx

@[simp] theorem builtState_blk (s : State) (m : List Byte) : (builtState s m).blk = pad m := by
  simp only [builtState, State.setAcc_blk, State.setWork_blk]

/-- Settles O21: the state BUILD leaves has the old CAUSE, LEN, MSG and samples, and a block of 64 bytes. -/
theorem buildFrame : Obligations.BuildFrame := by
  intro s t h
  obtain ⟨n, m, -, hn, hm, rfl⟩ := exec_build_next h
  refine ⟨rfl, rfl, rfl, fun _ => rfl, rfl, fun hwf x hx => ?_⟩
  have hlegal : m.length ≤ 55 := by rwa [readBytes_length hm]
  rw [builtState_blk, readByte_outside hwf hx, readByte_pad_outside hlegal hx]

/-- Whatever its function, word and number, a round writes A..D, and PH or RI (R164, R169). -/
theorem roundOp_frame {fn : Word → Word → Word → Word} {g : BitVec 4} {i : RoundIndex} {s t : State}
    (h : roundOp fn g i s = .next t) :
    ∃ (q : Quad) (ph : Elem Phase) (ri : Elem RoundIndex), t = { s.setWork q with ph := ph, ri := ri } ∧
      (ph = s.ph ∨ ph = .val .final) ∧ (ri = s.ri ∨ ri = .val (i + 1)) := by
  obtain ⟨q, w, -, -, rfl⟩ := roundOp_next h
  exact ⟨_, _, _, advanceRound_eq i _, ite_eq_or_eq .., (ite_eq_or_eq ..).symm⟩

/-- Settles O37: the four operations are one datapath, with one frame. -/
theorem roundsFrame : Obligations.RoundsFrame := by
  intro s t i h
  obtain ⟨fn, g, hround⟩ : ∃ fn g, roundOp fn g i s = .next t := by
    rcases h with h | h | h | h <;> exact ⟨_, _, h⟩
  obtain ⟨q, ph, ri, rfl, hph, hri⟩ := roundOp_frame hround
  exact ⟨rfl, rfl, rfl, rfl, fun _ => rfl, fun _ => rfl, rfl, rfl, rfl, rfl, rfl, hph, hri⟩

/-- Settles O42: FINAL writes PH and the accumulators alone. -/
theorem finalFrame : Obligations.FinalFrame := by
  intro s t h
  obtain ⟨q, r, -, -, rfl⟩ := exec_final_next h
  exact ⟨rfl, rfl, rfl, rfl, rfl, fun _ => rfl, fun _ => rfl, rfl, rfl, rfl, rfl, rfl⟩

end Sys2Proof.Machine
end

section
/-! PROOFS. Where the operations stop (spec/60_exceptions.md R207, R210): on a `⊥` operand and, in BUILD, on a length
that no message has; and nothing is refused. -/

namespace Sys2Proof.Machine

open Sys2Proof.Safety

/-! ## BUILD -/

/-- Reading bytes gives `⊥` exactly if one of them is `⊥`. -/
theorem readBytes_eq_bot_iff (m : Memory) (x n : Nat) :
    readBytes m x n = .bot ↔ ∃ k < n, readByte m (x + k) = .bot := by
  induction n generalizing x with
  | zero => simp
  | succ n ih =>
    have hhead : readBytes m x (n + 1) = .bot ↔ readByte m x = .bot ∨ readBytes m (x + 1) n = .bot := by
      rw [readBytes]
      cases readByte m x <;> cases readBytes m (x + 1) n <;> simp
    rw [hhead, ih]
    constructor
    · rintro (h | ⟨k, hk, h⟩)
      · exact ⟨0, by omega, h⟩
      · exact ⟨k + 1, by omega, by rwa [show x + (k + 1) = x + 1 + k by omega]⟩
    · rintro ⟨k, hk, h⟩
      cases k with
      | zero => exact .inl h
      | succ k => exact .inr ⟨k, by omega, by rwa [show x + 1 + k = x + (k + 1) by omega]⟩

theorem exec_build_of_bottom_len {s : State} (h : s.len = .bot) : exec .build s = .fault (.readBottom .len) := by
  simp only [exec, execBuild, h, need_bot]

/-- BUILD with a length above 55, for which there is no padded block (log 5). -/
theorem exec_build_of_long {s : State} {n : Length} (hl : s.len = .val n) (hn : 55 < n.toNat) :
    exec .build s = .fault .padUndefined := by
  simp only [exec, execBuild, hl, need_val, if_pos ((inputTooLong_iff n).2 hn)]

theorem exec_build_of_bottom_msg {s : State} {n : Length} (hl : s.len = .val n) (hn : n.toNat ≤ 55)
    (hm : readBytes s.msg 0 n.toNat = .bot) : exec .build s = .fault (.readBottom .msg) := by
  have hlegal : ¬ inputTooLong n = true := by rw [inputTooLong_iff]; omega
  simp only [exec, execBuild, hl, need_val, if_neg hlegal, hm, need_bot]

/-- Settles O20: the three reads and checks of BUILD in their order; where each passes, BUILD answers. -/
theorem buildStopsOnlyWithoutALegalMessage : Obligations.BuildStopsOnlyWithoutALegalMessage := by
  refine fun s => ⟨exec_build_of_bottom_len, fun n hl hn => exec_build_of_long hl hn, fun n hl hn hbot => ?bottom,
    fun n hl hn hval => ?answers⟩
  case bottom => exact exec_build_of_bottom_msg hl hn ((readBytes_eq_bot_iff _ _ _).2 (by simpa using hbot))
  case answers =>
    cases hm : readBytes s.msg 0 n.toNat with
    | val m => exact ⟨_, exec_build_of hl hn hm⟩
    | bot =>
      obtain ⟨k, hk, hbot⟩ := (readBytes_eq_bot_iff _ _ _).1 hm
      rw [Nat.zero_add] at hbot
      exact absurd hbot (hval k hk)

/-! ## The rounds and FINAL -/

/-- A read faults on `⊥`, and on a value exactly where what follows it does. -/
theorem need_faults_iff {α : Type} {e : Element} {x : Elem α} {k : α → Result} {P : Prop}
    (hk : ∀ v, x = .val v → ((∃ f, k v = .fault f) ↔ P)) : (∃ f, need e x k = .fault f) ↔ x = .bot ∨ P := by
  cases x with
  | bot => simp
  | val v => simpa using hk v rfl

theorem needWork_faults_iff {s : State} {k : Quad → Result} {P : Prop}
    (hk : ∀ q, WorkIs s q → ((∃ f, k q = .fault f) ↔ P)) :
    (∃ f, needWork s k = .fault f) ↔ s.a = .bot ∨ s.b = .bot ∨ s.c = .bot ∨ s.d = .bot ∨ P :=
  need_faults_iff fun a ha => need_faults_iff fun b hb => need_faults_iff fun c hc => need_faults_iff fun d hd =>
    hk ⟨a, b, c, d⟩ ⟨ha, hb, hc, hd⟩

theorem needAcc_faults_iff {s : State} {k : Quad → Result} {P : Prop}
    (hk : ∀ q, AccIs s q → ((∃ f, k q = .fault f) ↔ P)) :
    (∃ f, needAcc s k = .fault f) ↔ s.a0 = .bot ∨ s.b0 = .bot ∨ s.c0 = .bot ∨ s.d0 = .bot ∨ P :=
  need_faults_iff fun a ha => need_faults_iff fun b hb => need_faults_iff fun c hc => need_faults_iff fun d hd =>
    hk ⟨a, b, c, d⟩ ⟨ha, hb, hc, hd⟩

theorem next_faults_iff (t : State) : (∃ f, (.next t : Result) = .fault f) ↔ False := by simp

/-- A round computes with any values: only a `⊥` operand stops it. -/
theorem roundOp_faults_iff (fn : Word → Word → Word → Word) (g : BitVec 4) (i : RoundIndex) (s : State) :
    (∃ f, roundOp fn g i s = .fault f) ↔
      s.a = .bot ∨ s.b = .bot ∨ s.c = .bot ∨ s.d = .bot ∨ wordView s.blk g = .bot :=
  needWork_faults_iff fun _ _ => (need_faults_iff fun _ _ => next_faults_iff _).trans (Iff.of_eq (or_false _))

theorem exec_final_faults_iff (s : State) :
    (∃ f, exec .final s = .fault f) ↔
      s.a = .bot ∨ s.b = .bot ∨ s.c = .bot ∨ s.d = .bot ∨
        s.a0 = .bot ∨ s.b0 = .bot ∨ s.c0 = .bot ∨ s.d0 = .bot := by
  simp only [exec, execFinal]
  refine needWork_faults_iff fun _ _ => ?_
  rw [needAcc_faults_iff fun _ _ => next_faults_iff _, or_false]

theorem exec_start_ne_fault (s : State) (f : Fault) : exec .start s ≠ .fault f := by
  obtain ⟨t, ht⟩ := exec_start_answers s
  rw [ht]
  exact nofun

/-- Settles O39: a round and FINAL fault where one of their reads does; RESET, HOLD and START read no element. -/
theorem onlyBottomOperandsStopTheCore : Obligations.OnlyBottomOperandsStopTheCore := by
  refine fun s => ⟨fun i => ?round, exec_final_faults_iff s, fun f => ⟨nofun, nofun, exec_start_ne_fault s f⟩⟩
  rw [exec_roundInstr]
  exact roundOp_faults_iff _ _ i s

/-! ## Nothing is refused -/

theorem need_ne_refused {α : Type} {e : Element} {x : Elem α} {k : α → Result} {r : Refusal}
    (hk : ∀ v, k v ≠ .refused r) : need e x k ≠ .refused r := by
  cases x with
  | bot => exact nofun
  | val v => exact hk v

theorem needWork_ne_refused {s : State} {k : Quad → Result} {r : Refusal} (hk : ∀ q, k q ≠ .refused r) :
    needWork s k ≠ .refused r :=
  need_ne_refused fun _ => need_ne_refused fun _ => need_ne_refused fun _ => need_ne_refused fun _ => hk _

theorem needAcc_ne_refused {s : State} {k : Quad → Result} {r : Refusal} (hk : ∀ q, k q ≠ .refused r) :
    needAcc s k ≠ .refused r :=
  need_ne_refused fun _ => need_ne_refused fun _ => need_ne_refused fun _ => need_ne_refused fun _ => hk _

theorem roundOp_ne_refused (fn : Word → Word → Word → Word) (g : BitVec 4) (i : RoundIndex) (s : State) (r : Refusal) :
    roundOp fn g i s ≠ .refused r :=
  needWork_ne_refused fun _ => need_ne_refused fun _ => nofun

theorem exec_build_ne_refused (s : State) (r : Refusal) : exec .build s ≠ .refused r := by
  refine need_ne_refused fun n => ?_
  split
  · exact nofun
  · exact need_ne_refused fun _ => nofun

theorem exec_start_ne_refused (s : State) (r : Refusal) : exec .start s ≠ .refused r := by
  obtain ⟨t, ht⟩ := exec_start_answers s
  rw [ht]
  exact nofun

theorem exec_final_ne_refused (s : State) (r : Refusal) : exec .final s ≠ .refused r := by
  simp only [exec, execFinal]
  exact needWork_ne_refused fun _ => needAcc_ne_refused fun _ => nofun

/-- Every operation answers a next state or faults. -/
theorem exec_ne_refused (i : Instr) (s : State) (r : Refusal) : exec i s ≠ .refused r := by
  cases i with
  | reset | phReserved | hold => exact nofun
  | build => exact exec_build_ne_refused s r
  | roundF j => exact roundOp_ne_refused _ _ j s r
  | roundG j => exact roundOp_ne_refused _ _ j s r
  | roundH j => exact roundOp_ne_refused _ _ j s r
  | roundI j => exact roundOp_ne_refused _ _ j s r
  | final => exact exec_final_ne_refused s r
  | start => exact exec_start_ne_refused s r

/-- Settles O9: a step answers what its operation does, or the fault that forming its selector met. -/
theorem nothingIsRefused : Obligations.NothingIsRefused := by
  refine fun s r => ⟨fun i => exec_ne_refused i s r, fun h => ?step⟩
  unfold step at h
  split at h
  · cases h
  · next w _ =>
    split at h
    · cases h
    · cases h
    · next r' hr => exact exec_ne_refused _ s r' hr

end Sys2Proof.Machine
end

section
/-! PROOFS. What the block depends on (spec/41_block_builder.md R143): LEN and the message bytes below it. -/

namespace Sys2Proof.Machine

open Sys2Proof.Safety

theorem readBytes_congr {m m' : Memory} {x n : Nat} (h : ∀ k < n, readByte m (x + k) = readByte m' (x + k)) :
    readBytes m x n = readBytes m' x n := by
  induction n generalizing x with
  | zero => rfl
  | succ n ih =>
    have htail : readBytes m (x + 1) n = readBytes m' (x + 1) n := ih fun k hk => by
      rw [show x + 1 + k = x + (k + 1) by omega]
      exact h (k + 1) (by omega)
    rw [readBytes, readBytes, show readByte m x = readByte m' x from h 0 (by omega), htail]

/-- Of the state it is given BUILD keeps MSG, and its own writes are of the message alone. -/
theorem builtState_withMsg (s : State) (m : List Byte) (other : Memory) :
    builtState { s with msg := other } m = { builtState s m with msg := other } := rfl

/-- BUILD with another MSG that agrees below LEN writes the same. -/
theorem exec_build_of_same_message {s t : State} {n : Length} {other : Memory} (hl : s.len = .val n)
    (hother : ∀ k < n.toNat, readByte other k = readByte s.msg k) (h : exec .build s = .next t) :
    exec .build { s with msg := other } = .next { t with msg := other } := by
  obtain ⟨n', m, hl', hn, hm, rfl⟩ := exec_build_next h
  obtain rfl : n' = n := Elem.val.inj (hl'.symm.trans hl)
  have hsame : readBytes other 0 n'.toNat = readBytes s.msg 0 n'.toNat :=
    readBytes_congr fun k hk => by rw [Nat.zero_add]; exact hother k hk
  rw [exec_build_of (s := { s with msg := other }) hl hn (hsame.trans hm), builtState_withMsg]

/-- START and BUILD make the padded block of the message that the request presents (R121, R140). -/
theorem blk_of_request {s t t' : State} (hstart : exec .start s = .next t) (hbuild : exec .build t = .next t') :
    t'.blk = pad (requestMessage s.sample) := by
  obtain ⟨_, _, rfl⟩ := exec_start_next hstart
  obtain ⟨n, m, hlen, hn, hm, rfl⟩ := exec_build_next hbuild
  obtain rfl : s.sample.lenIn = n := Elem.val.inj hlen
  obtain rfl : requestMessage s.sample = m := Elem.val.inj ((readBytes_latchBytes _ hn).symm.trans hm)
  rw [builtState_blk]

/-- A request's message is its lanes below its length (R100). -/
theorem requestMessage_congr {p q : Ports} (hlen : p.lenIn = q.lenIn)
    (hlanes : ∀ k < p.lenIn.toNat, lane p.msgIn k = lane q.msgIn k) : requestMessage p = requestMessage q := by
  rw [requestMessage, requestMessage, ← hlen]
  exact List.map_congr_left fun k hk => hlanes k (List.mem_range.1 hk)

/-- Settles O27: BUILD reads MSG below LEN only, and the block of a request is that of its message. -/
theorem blockIgnoresBytesBeyondTheLength : Obligations.BlockIgnoresBytesBeyondTheLength := by
  refine ⟨fun s t n other hl hother h => exec_build_of_same_message hl hother h, ?_⟩
  intro s t u t' u' p q l hlen hlanes ht hu ht' hu'
  have hsame : requestMessage p = requestMessage q := requestMessage_congr hlen hlanes
  rw [blk_of_request ht ht', blk_of_request hu hu']
  exact congrArg pad hsame

end Sys2Proof.Machine
end

section
/-! PROOFS. The first hex digits of the digest (spec/44_digest_assembler.md R193), by its digits in base 16. -/

namespace Sys2Proof.Machine

/-- The hex digits of bytes, the high digit of each byte first (R193). -/
def hexDigits (zs : List Byte) : List Nat := zs.flatMap fun z => [z.toNat / 16, z.toNat % 16]

/-- The number that digits in base 16 write, the most significant first. -/
def hexValue (ds : List Nat) : Nat := ds.foldl (fun v h => 16 * v + h) 0

theorem hexDigits_length (zs : List Byte) : (hexDigits zs).length = 2 * zs.length := by
  simp [hexDigits, List.length_flatMap, Nat.mul_comm]

theorem hexDigits_lt {zs : List Byte} {d : Nat} (h : d ∈ hexDigits zs) : d < 16 := by
  simp only [hexDigits, List.mem_flatMap, List.mem_cons, List.not_mem_nil, or_false] at h
  obtain ⟨z, -, hd⟩ := h
  have hz : z.toNat < 256 := z.isLt
  omega

/-- A number's bytes and its hex digits are two ways to write it. -/
theorem foldl_bytes_eq_hexValue (zs : List Byte) :
    zs.foldl (fun v z => v * 2 ^ 8 + z.toNat) 0 = hexValue (hexDigits zs) := by
  rw [hexValue, hexDigits, List.foldl_flatMap]
  congr
  funext v z
  simp only [List.foldl]
  omega

theorem hexValue_eq_ofDigits (ds : List Nat) : hexValue ds = Nat.ofDigits 16 ds.reverse := by
  rw [hexValue, Nat.ofDigits_eq_foldr, List.foldr_reverse]
  simp [Nat.add_comm]

/-- The first `k` digits of a number in base 16 are what is left of it without the others. -/
theorem hexValue_take {ds : List Nat} (hds : ∀ d ∈ ds, d < 16) (k : Nat) :
    hexValue (ds.take k) = hexValue ds / 16 ^ (ds.length - k) := by
  rw [hexValue_eq_ofDigits, hexValue_eq_ofDigits, List.reverse_take,
    Nat.ofDigits_div_pow_eq_ofDigits_drop _ (by omega) _ fun d hd => hds d (List.mem_reverse.1 hd)]

theorem hexValue_lt {ds : List Nat} (hds : ∀ d ∈ ds, d < 16) : hexValue ds < 16 ^ ds.length := by
  rw [hexValue_eq_ofDigits, ← List.length_reverse]
  exact Nat.ofDigits_lt_base_pow_length (by omega) fun d hd => hds d (List.mem_reverse.1 hd)

theorem hexDigits_digestBytes_length (q : Quad) : (hexDigits (digestBytes q)).length = 32 := hexDigits_length _

/-- The digest is the number whose 32 hex digits are those of its sixteen bytes: none is lost at the top. -/
theorem serialise_toNat (q : Quad) : (serialise q).toNat = hexValue (hexDigits (digestBytes q)) := by
  have hlt := hexValue_lt fun d hd => hexDigits_lt (zs := digestBytes q) hd
  rw [hexDigits_digestBytes_length] at hlt
  rw [serialise_eq_ofNat, foldl_bytes_eq_hexValue, BitVec.toNat_ofNat]
  exact Nat.mod_eq_of_lt (hlt.trans_eq (by norm_num))

/-- Settles O45: the shift drops the last `32 - k` digits. -/
theorem hexPrefixProperty : Obligations.HexPrefixProperty := by
  intro acc k hk
  have hpow : 2 ^ (128 - 4 * k) = 16 ^ (32 - k) := by
    rw [show 128 - 4 * k = 4 * (32 - k) by omega, pow_mul]
    rfl
  have htake := hexValue_take (fun d hd => hexDigits_lt (zs := digestBytes acc) hd) k
  rw [hexPrefix, BitVec.toNat_ushiftRight, Nat.shiftRight_eq_div_pow, serialise_toNat, hpow,
    ← hexDigits_digestBytes_length acc]
  exact htake.symm

end Sys2Proof.Machine
end

section
/-! PROOFS. While the host only waits (spec/10_state.md R34, spec/70_reset_and_hazards.md R236), and the texts that are
too long (R237). -/

namespace Sys2Proof.Machine

open Sys2Proof.Safety

/-- Steps without a request from a waiting state use up their samples and do nothing else. -/
theorem run_hold {n : Nat} {s : State} (hw : Waiting s)
    (hports : ∀ k < n, (sampleAt s k).rst = false ∧ (sampleAt s k).start = false) :
    run n s = .next { s with inputs := s.inputs.drop n } := by
  induction n generalizing s with
  | zero => rfl
  | succ n ih =>
    obtain ⟨hr, hs⟩ := hports 0 (by omega)
    rw [sampleAt_zero] at hr hs
    rw [run_succ_of n (step_hold hr hw hs), ih (s := s.dropSample) hw fun k hk => ?later,
      State.dropSample_inputs, List.drop_tail]
    · rfl
    · rw [sampleAt_tail (t := s.dropSample) rfl]
      exact hports (k + 1) (by omega)

/-- Settles O47: the state after the wait is the old one but for its samples, and no output depends on those. -/
theorem waitingKeepsTheDigest : Obligations.WaitingKeepsTheDigest :=
  fun _ _ hp hports => ⟨_, run_hold (.inr (.inl hp)) hports, rfl, rfl⟩

theorem startText_of_unsendable {text : List Byte} (h : 64 ≤ text.length) (s : State) :
    startText text s = .unsendable := by
  rw [startText, textRequest, if_neg (by omega)]

/-- A text of 56 to 63 bytes fits the port, so START sees its true length and rejects it (R201). -/
theorem startText_of_too_long {s : State} {text : List Byte} (hlong : 56 ≤ text.length) (hfits : text.length < 64)
    (hw : Waiting s) :
    ∃ p, startText text s = .ran (raiseInputTooLong p { s with inputs := [p] }).dropSample := by
  have hlen : (BitVec.ofNat 6 text.length).toNat = text.length := by
    rw [BitVec.toNat_ofNat, Nat.mod_eq_of_lt (by omega)]
  refine ⟨Ports.request (BitVec.ofNat 6 text.length) (messageLanes text), ?_⟩
  rw [startText, textRequest, if_pos hfits]
  refine driveStep_of_step (step_start_illegal rfl hw rfl ?_)
  show 55 < (BitVec.ofNat 6 text.length).toNat
  omega

/-- Settles O60: the host's check at 64 bytes, and the engine's at 56. -/
theorem oversizeTextIsNeverHashed : Obligations.OversizeTextIsNeverHashed := by
  refine fun s text => ⟨fun h => startText_of_unsendable h s, fun hlong hfits hw => ?_⟩
  obtain ⟨p, hran⟩ := startText_of_too_long hlong hfits hw
  exact ⟨_, hran, State.err_of_ph (p := .err) rfl, State.causeOut_of_cause (c := .inputTooLong) rfl⟩

end Sys2Proof.Machine
end

section
/-! PROOFS. The constant table (spec/20_memory.md section 2) against its published checksums. -/

namespace Sys2Proof.Machine

/-- The sum of the table mod `2^32`, entry by entry through the four quarters. -/
theorem roundConstants_sum : roundConstants.foldl (· + ·) 0 = 0x27f3a0bc#32 := by
  simp [roundConstants, roundConstantsF, roundConstantsG, roundConstantsH, roundConstantsI]

theorem roundConstants_xor : roundConstants.foldl (· ^^^ ·) 0 = 0x10e6cc5a#32 := by
  simp [roundConstants, roundConstantsF, roundConstantsG, roundConstantsH, roundConstantsI]

/-- Settles O31: the length, the two checksums, and the entries as the table lists them. -/
theorem constantTableChecksums : Obligations.ConstantTableChecksums :=
  ⟨roundConstants_length, roundConstants_sum, roundConstants_xor, rfl, rfl, rfl, rfl, rfl⟩

end Sys2Proof.Machine
end
